-- ==== Sys2Proof/Word.lean ====
section
/-! DEFINITION. The words of the machine: packet bytes, duration entries, packets. -/

namespace Sys2Proof

/-- A packet byte, unsigned, bit 0 least significant (R7, `BYTE_W = 8` of R6). -/
abbrev Byte := BitVec 8

/-- A duration entry: a signed `DUR_W = 32` bit integer in microseconds, two's complement.
Positive is a mark, negative a space (R12, R61). -/
abbrev Duration := BitVec 32

/-- A WirePacket: exactly sixteen bytes, byte 0 first (R66). The type of `DPKT` and `EPKT`. -/
abbrev Packet := Vector Byte 16

end Sys2Proof
end

