-- ==== Sys2Proof/Config.lean ====
section
/-! DEFINITION. What is fixed for the machine: the constants of R5 and R26, and the free values, which the spec leaves
without a value (`opaque`, so that no proof can see them). -/

namespace Sys2Proof
namespace Config

/-- `BIT_PERIOD`, microseconds (R5). -/
def bitPeriod : Nat := 800

/-- Numerator of the upper threshold `2/3 · BIT_PERIOD` (R5). -/
def hiNum : Nat := 2

/-- Numerator of the lower threshold `1/3 · BIT_PERIOD` (R5). -/
def loNum : Nat := 1

/-- The common denominator of the two thresholds (R5). -/
def thirdsDen : Nat := 3

/-- `PREAMBLE`, bytes 0 to 9 of every packet (R5, R26, R66; UNVERIFIED, log entry 20). -/
def preamble : Vector Byte 10 :=
  #v[0x5A#8, 0xA5#8, 0x80#8, 0x7F#8, 0x40#8, 0xBF#8, 0x20#8, 0xDF#8, 0x10#8, 0xCC#8]

/-- `FILL13`, byte 13 of every packet sent (R5, R26). -/
def fill13 : Byte := 0xFF#8

/-- `FILL14`, byte 14 of every packet sent (R5, R26). -/
def fill14 : Byte := 0x23#8

/-- `STOP_BITS`: bit periods of the stop space (R5). -/
def stopBits : Nat := 2

/-- `END_WRITE_PERIODS`: bit periods of the end marker as written (R5). -/
def endWritePeriods : Nat := 8

/-- `CARRIER_HZ`, the constant 32-bit output `CARRIER` (R5, R25, R26). -/
def carrierHz : BitVec 32 := 38000#32

/-- FREE VALUE (log entry 4): `SLOT` between operations, where it has no value (R15). -/
opaque freeSlot : Nat → Fin 17

/-- FREE VALUE (log entry 4): `BITN` between operations, where it has no value (R15). -/
opaque freeBitn : Nat → Fin 8

/-- FREE VALUE (log entry 4): `ACC` between operations, where it has no value (R15). -/
opaque freeAcc : Nat → Byte

/-- FREE VALUE (log entry 5): `DPKT` after a failed FRAME, where it has no value (R16, R117). -/
opaque freePacket : Nat → Packet

/-- FREE VALUE (log entry 6): what a read of `DIAG` gives while it has no value (R18, R248). -/
opaque freeDiag : Nat → BitVec 3

end Config
end Sys2Proof
end

