-- ==== Sys2Proof/Syntax.lean ====
section
/-! DEFINITION. The operations and formats of `spec/opcode_table.json`, one constructor per row. -/

namespace Sys2Proof

/-- A Command: six booleans and two unsigned bytes, every combination legal (R20, R21). -/
structure Command where
  fanOn : Bool
  special : Bool
  fanExhaust : Bool
  coverOpen : Bool
  autoMode : Bool
  warn : Bool
  fanSpeed : Byte
  autoTemperature : Byte
deriving DecidableEq, Repr

/-- The state byte `rrwacxsf` (packet byte 10) by its fields, reserved bits 7:6 included (R67). -/
structure StateByte where
  reserved : BitVec 2
  warn : Bool
  autoMode : Bool
  coverOpen : Bool
  fanExhaust : Bool
  special : Bool
  fanOn : Bool
deriving DecidableEq, Repr

/-- The rows of the opcode table. The first nine are the operations of R80. The others are the table's wire formats,
whose event is the arrival of that element at the receive sequence, and its two result registers, whose event is the
host's read of them (log entries 7 and 8). -/
inductive Instr where
  /-- `RD_RESET` (R91). -/
  | rdReset
  /-- `NEXT_BIT` (R93). -/
  | nextBit
  /-- `FRAME` (R111). -/
  | frame
  /-- `VALIDATE` (R132). -/
  | validate
  /-- `UNPACK` (R151). -/
  | unpack
  /-- `PACK cmd` (R155). -/
  | pack (cmd : Command)
  /-- `WRITE` (R171). -/
  | write
  /-- `DECODE rx` (R191). -/
  | decode (rx : List Duration)
  /-- `ENCODE cmd` (R192). -/
  | encode (cmd : Command)
  /-- `WIRE.BIT_CELL.MARK` (R61, R62): a mark of one bit period, logical 0. -/
  | wireBitCellMark
  /-- `WIRE.BIT_CELL.SPACE` (R61, R62): a space of one bit period, logical 1. -/
  | wireBitCellSpace
  /-- `WIRE.BYTE_FRAME` (R64): one byte in its frame `0abcdefgh11`. -/
  | wireByteFrame (b : Byte)
  /-- `WIRE.END_MARKER` (R65). -/
  | wireEndMarker
  /-- `WIRE.PACKET` (R66): sixteen bytes, each in a byte frame. -/
  | wirePacket (p : Packet)
  /-- `WIRE.STATE_BYTE` (R67): the state byte, in a byte frame. -/
  | wireStateByte (sb : StateByte)
  /-- `STATUS` (R17): the host reads the 3-bit result code. -/
  | status
  /-- `DIAG` (R18, R134): the host reads the 3-bit diagnostic register. -/
  | diag
deriving DecidableEq, Repr

end Sys2Proof
end

