-- ==== Sys2Proof/WellFormed.lean ====
section
/-! DEFINITION. Which instructions are well formed. The types leave one check: the fixed bits of the `WIRE.PACKET`
pattern. Every Command is well formed (R21, R156) and every finite receive sequence is (R12, D4). -/

namespace Sys2Proof

/-- The fixed bits of the `WIRE.PACKET` pattern: bytes 0 to 9 are the preamble (R66). -/
def packetPatternFits (p : Packet) : Bool :=
  p.toList.take 10 == Config.preamble.toList

/-- The check of each constructor. -/
def Instr.wellFormed : Instr → Bool
  | .rdReset => true
  | .nextBit => true
  | .frame => true
  | .validate => true
  | .unpack => true
  | .pack _ => true
  | .write => true
  | .decode _ => true
  | .encode _ => true
  | .wireBitCellMark => true
  | .wireBitCellSpace => true
  | .wireByteFrame _ => true
  | .wireEndMarker => true
  | .wirePacket p => packetPatternFits p
  | .wireStateByte _ => true
  | .status => true
  | .diag => true

/-- The host-visible operations (R81): DECODE and ENCODE, and no others. The wire formats and the two reads are no
operations; all that a host may do is `hostMay` in Machine/Fetch.lean. -/
def Instr.hostVisible : Instr → Bool
  | .decode _ => true
  | .encode _ => true
  | .rdReset => false
  | .nextBit => false
  | .frame => false
  | .validate => false
  | .unpack => false
  | .pack _ => false
  | .write => false
  | .wireBitCellMark => false
  | .wireBitCellSpace => false
  | .wireByteFrame _ => false
  | .wireEndMarker => false
  | .wirePacket _ => false
  | .wireStateByte _ => false
  | .status => false
  | .diag => false

end Sys2Proof
end

