-- ==== Sys2Proof/Decode.lean ====
section
/-! DEFINITION. A request's bytes to an instruction, and back. The 4-bit `UOP` codes are the spec's (R80); the byte
container around them, its operand bytes, and the codes of the rows that are no operations are the model's own
(DESIGN CHOICE, log entry 2). -/

namespace Sys2Proof

/-- Why a request names no instruction. -/
inductive Reject where
  /-- The request has no bytes. -/
  | empty
  /-- The operation code is unassigned: `UOP` 0x0 or 0xA to 0xF (R70, R80). -/
  | unassignedUop (uop : Nat)
  /-- Operand bytes missing or left over. -/
  | operandLength
  /-- Bits 7:6 of a Command's state byte are not zero: a Command has no such fields (R20). -/
  | commandReserved
  /-- A bit cell's pattern is neither `0` nor `1` (R61). -/
  | bitCellPattern
  /-- A byte frame's pattern is not `0abcdefgh11` (R64). -/
  | byteFramePattern
  /-- An end marker's pattern is not `1` (R65). -/
  | endMarkerPattern
  /-- A packet's pattern does not begin with the preamble (R66). -/
  | packetPattern
deriving DecidableEq, Repr

/-! ### Operands -/

/-- A duration entry from its four bytes, least significant first. -/
def durationOfBytes (b0 b1 b2 b3 : Byte) : Duration :=
  b0.setWidth 32 ||| (b1.setWidth 32 <<< 8) ||| (b2.setWidth 32 <<< 16) ||| (b3.setWidth 32 <<< 24)

/-- The four bytes of a duration entry, least significant first. -/
def bytesOfDuration (d : Duration) : List Byte :=
  [d.extractLsb' 0 8, d.extractLsb' 8 8, d.extractLsb' 16 8, d.extractLsb' 24 8]

/-- A receive sequence from its bytes, four to an entry. -/
def durationsOfBytes : List Byte → Option (List Duration)
  | [] => some []
  | b0 :: b1 :: b2 :: b3 :: rest =>
    match durationsOfBytes rest with
    | some ds => some (durationOfBytes b0 b1 b2 b3 :: ds)
    | none => none
  | _ :: _ => none

/-- The bytes of a receive sequence. -/
def bytesOfDurations : List Duration → List Byte
  | [] => []
  | d :: ds => bytesOfDuration d ++ bytesOfDurations ds

/-- The fields of a state byte `rrwacxsf` (R67). -/
def stateByteOfByte (b : Byte) : StateByte where
  reserved := b.extractLsb' 6 2
  warn := b.getLsbD 5
  autoMode := b.getLsbD 4
  coverOpen := b.getLsbD 3
  fanExhaust := b.getLsbD 2
  special := b.getLsbD 1
  fanOn := b.getLsbD 0

/-- The byte `rrwacxsf` of a state byte's fields (R67). -/
def byteOfStateByte (sb : StateByte) : Byte :=
  (sb.reserved.setWidth 8 <<< 6)
    ||| ((BitVec.ofBool sb.warn).setWidth 8 <<< 5)
    ||| ((BitVec.ofBool sb.autoMode).setWidth 8 <<< 4)
    ||| ((BitVec.ofBool sb.coverOpen).setWidth 8 <<< 3)
    ||| ((BitVec.ofBool sb.fanExhaust).setWidth 8 <<< 2)
    ||| ((BitVec.ofBool sb.special).setWidth 8 <<< 1)
    ||| ((BitVec.ofBool sb.fanOn).setWidth 8 <<< 0)

/-- A Command from its three operand bytes: state byte, speed, temperature. -/
def commandOfBytes (sb : StateByte) (speed temperature : Byte) : Command where
  fanOn := sb.fanOn
  special := sb.special
  fanExhaust := sb.fanExhaust
  coverOpen := sb.coverOpen
  autoMode := sb.autoMode
  warn := sb.warn
  fanSpeed := speed
  autoTemperature := temperature

/-- The three operand bytes of a Command. -/
def bytesOfCommand (c : Command) : List Byte :=
  [byteOfStateByte ⟨0#2, c.warn, c.autoMode, c.coverOpen, c.fanExhaust, c.special, c.fanOn⟩,
    c.fanSpeed, c.autoTemperature]

/-- The pattern `0abcdefgh11` of a byte's frame, read as a binary numeral, in sixteen bits (R64: `a` is bit 0 of the
byte). -/
def byteFramePattern (b : Byte) : BitVec 16 :=
  (b.reverse.setWidth 16 <<< 2) ||| 3#16

/-- The byte in a byte frame's pattern. -/
def byteOfFramePattern (v : BitVec 16) : Byte :=
  (v.extractLsb' 2 8).reverse

/-- Sixteen bytes as a packet, or nothing. -/
def packetOfBytes (bs : List Byte) : Option Packet :=
  if h : bs.length = 16 then some ⟨bs.toArray, by simpa using h⟩ else none

/-! ### The decoder -/

/-- An instruction without operands. -/
def decodeBare (i : Instr) : List Byte → Except Reject Instr
  | [] => .ok i
  | _ :: _ => .error .operandLength

/-- An instruction whose operand is a Command. -/
def decodeCommand (mk : Command → Instr) : List Byte → Except Reject Instr
  | [st, speed, temperature] =>
    let sb := stateByteOfByte st
    if sb.reserved = 0#2 then .ok (mk (commandOfBytes sb speed temperature))
    else .error .commandReserved
  | _ => .error .operandLength

/-- `DECODE` with its receive sequence. -/
def decodeSequence (bs : List Byte) : Except Reject Instr :=
  match durationsOfBytes bs with
  | some rx => .ok (.decode rx)
  | none => .error .operandLength

/-- A bit cell by its pattern: `0` a mark, `1` a space (R61). -/
def decodeBitCell : List Byte → Except Reject Instr
  | [b] =>
    if b = 0#8 then .ok .wireBitCellMark
    else if b = 1#8 then .ok .wireBitCellSpace
    else .error .bitCellPattern
  | _ => .error .operandLength

/-- A byte frame by its pattern `0abcdefgh11` (R64). -/
def decodeByteFrame : List Byte → Except Reject Instr
  | [lo, hi] =>
    let v : BitVec 16 := lo.setWidth 16 ||| (hi.setWidth 16 <<< 8)
    let b := byteOfFramePattern v
    if v = byteFramePattern b then .ok (.wireByteFrame b) else .error .byteFramePattern
  | _ => .error .operandLength

/-- An end marker by its pattern `1` (R65). -/
def decodeEndMarker : List Byte → Except Reject Instr
  | [b] => if b = 1#8 then .ok .wireEndMarker else .error .endMarkerPattern
  | _ => .error .operandLength

/-- A packet by its pattern: the preamble, then six free bytes (R66). -/
def decodePacket (bs : List Byte) : Except Reject Instr :=
  match packetOfBytes bs with
  | some p => if packetPatternFits p then .ok (.wirePacket p) else .error .packetPattern
  | none => .error .operandLength

/-- A state byte by its pattern `rrwacxsf` (R67). -/
def decodeStateByte : List Byte → Except Reject Instr
  | [b] => .ok (.wireStateByte (stateByteOfByte b))
  | _ => .error .operandLength

/-- The rows that are no operations. Their first byte has the unassigned `UOP` 0x0 in bits 3:0 and the row in bits 7:4
(log entry 2). -/
def decodeFormat (row : Nat) (operands : List Byte) : Except Reject Instr :=
  match row with
  | 1 => decodeBitCell operands
  | 2 => decodeByteFrame operands
  | 3 => decodeEndMarker operands
  | 4 => decodePacket operands
  | 5 => decodeStateByte operands
  | 6 => decodeBare .status operands
  | 7 => decodeBare .diag operands
  | _ => .error (.unassignedUop 0)

/-- The operation with code `uop`, as R80's table lists them. -/
def decodeOperation (uop row : Nat) (operands : List Byte) : Except Reject Instr :=
  match uop with
  | 0 => decodeFormat row operands
  | 1 => decodeBare .rdReset operands
  | 2 => decodeBare .nextBit operands
  | 3 => decodeBare .frame operands
  | 4 => decodeBare .validate operands
  | 5 => decodeBare .unpack operands
  | 6 => decodeCommand .pack operands
  | 7 => decodeBare .write operands
  | 8 => decodeSequence operands
  | 9 => decodeCommand .encode operands
  | _ => .error (.unassignedUop uop)

/-- The `UOP` of a request's first byte: bits 3:0, the table's mask 0xF (R80). -/
def uopOf (b : Byte) : Nat :=
  b.toNat % 16

/-- The instruction a request's bytes stand for, or why they stand for none. -/
def decode : List Byte → Except Reject Instr
  | [] => .error .empty
  | b :: operands => decodeOperation (uopOf b) (b.toNat / 16) operands

/-! ### The encoder -/

/-- The first byte of each row's request: the `UOP` of R80's table, or the model's code (log entry 2). -/
def leadByte : Instr → Byte
  | .rdReset => 0x01#8
  | .nextBit => 0x02#8
  | .frame => 0x03#8
  | .validate => 0x04#8
  | .unpack => 0x05#8
  | .pack _ => 0x06#8
  | .write => 0x07#8
  | .decode _ => 0x08#8
  | .encode _ => 0x09#8
  | .wireBitCellMark => 0x10#8
  | .wireBitCellSpace => 0x10#8
  | .wireByteFrame _ => 0x20#8
  | .wireEndMarker => 0x30#8
  | .wirePacket _ => 0x40#8
  | .wireStateByte _ => 0x50#8
  | .status => 0x60#8
  | .diag => 0x70#8

/-- The bytes after the first. -/
def operandBytes : Instr → List Byte
  | .rdReset => []
  | .nextBit => []
  | .frame => []
  | .validate => []
  | .unpack => []
  | .pack cmd => bytesOfCommand cmd
  | .write => []
  | .decode rx => bytesOfDurations rx
  | .encode cmd => bytesOfCommand cmd
  | .wireBitCellMark => [0#8]
  | .wireBitCellSpace => [1#8]
  | .wireByteFrame b => [(byteFramePattern b).extractLsb' 0 8, (byteFramePattern b).extractLsb' 8 8]
  | .wireEndMarker => [1#8]
  | .wirePacket p => p.toList
  | .wireStateByte sb => [byteOfStateByte sb]
  | .status => []
  | .diag => []

/-- The request that stands for an instruction. -/
def encode (i : Instr) : List Byte :=
  leadByte i :: operandBytes i

/-! ### The words of the opcode table -/

/-- How many operand bytes follow a first byte at the least (for `DECODE` the empty sequence). -/
def operandCount (lead : Byte) : Nat :=
  match uopOf lead with
  | 6 => 3
  | 9 => 3
  | 0 =>
    match lead.toNat / 16 with
    | 1 => 1
    | 2 => 2
    | 3 => 1
    | 4 => 16
    | 5 => 1
    | _ => 0
  | _ => 0

/-- The low `n` bytes of a number, least significant first. -/
def bytesOfNat : Nat → Nat → List Byte
  | 0, _ => []
  | n + 1, w => BitVec.ofNat 8 w :: bytesOfNat n (w / 256)

/-- The request for a table word of `nbits` bits. A word of sixteen bytes is the `WIRE.PACKET` row's own pattern and one
of two bytes the `WIRE.BYTE_FRAME` row's: neither holds a `UOP`, so the row's first byte goes before it. Any other
word holds the `UOP` in its first byte, and the operand bytes above it are zero. -/
def tableRequest (nbits w : Nat) : List Byte :=
  match (nbits + 7) / 8 with
  | 16 => 0x40#8 :: bytesOfNat 16 w
  | 2 => 0x20#8 :: bytesOfNat 2 w
  | n =>
    match bytesOfNat n w with
    | [] => []
    | lead :: more => lead :: (more ++ List.replicate (operandCount lead - more.length) 0#8)

/-- The instruction the decoder reads from a word of the opcode table. -/
def decodeTableWord (nbits w : Nat) : Option Instr :=
  match decode (tableRequest nbits w) with
  | .ok i => some i
  | .error _ => none

end Sys2Proof
end

