-- ==== Sys2Proof/Machine/State.lean ====
section
/-! DEFINITION. The machine's state, its stops, and the state after reset. -/

namespace Sys2Proof
namespace Machine

/-- The reader's cursor: `IDX`, the entry the next bit comes from, and `USED`, the microseconds already consumed from it
(R13, R14: a model uses `Nat`). -/
structure Cursor where
  idx : Nat
  used : Nat
deriving DecidableEq, Repr

/-- The outcome of one NEXT_BIT, one of four: `bit false` is `Bit(0)`, `bit true` is `Bit(1)` (R92). -/
inductive ReaderOutcome where
  | bit (b : Bool)
  | endOfData
  | malformedBit
deriving DecidableEq, Repr

/-- The five failure causes of the decode side (R210). -/
inductive Cause where
  | endOfData
  | malformedBit
  | framingViolation
  | preambleMismatch
  | checksumMismatch
deriving DecidableEq, Repr

/-- `STATUS`, the decode unit's result code (R17; its 3-bit numbers are `Status.code`). Code 7 is never produced. -/
inductive Status where
  | idle
  | ok
  | endOfData
  | malformedBit
  | framingViolation
  | preambleMismatch
  | checksumMismatch
deriving DecidableEq, Repr

/-- What an operation of DEC hands back to its caller when it is requested on its own, and what a read of a result
register hands to the host. The model's own (log entry 9): the spec returns these values and names no register. -/
inductive Returned where
  /-- Nothing has been handed back yet. -/
  | nothing
  /-- NEXT_BIT's outcome (R92). -/
  | reader (o : ReaderOutcome)
  /-- FRAME or VALIDATE succeeded. -/
  | done
  /-- FRAME or VALIDATE failed with a cause (R214, last sentence). -/
  | raised (c : Cause)
  /-- UNPACK's Command (R151). -/
  | command (c : Command)
  /-- The value the host read from `STATUS` or `DIAG`. -/
  | code (v : BitVec 3)
deriving DecidableEq, Repr

/-- The decode unit DEC (R10). -/
structure Dec where
  /-- `IDX` and `USED` (R13, R14). -/
  cur : Cursor
  /-- `SLOT`, 0 to 16 (R15). -/
  slot : Fin 17
  /-- `BITN`, 0 to 7 (R15). -/
  bitn : Fin 8
  /-- `ACC`, 8 bits (R15). -/
  acc : Byte
  /-- `DPKT[0..15]` (R16). -/
  dpkt : Packet
  /-- `STATUS` (R17). -/
  status : Status
  /-- `CMD_OUT` (R19); `none` is the spec's own "no value" (DEDUCED, log entry 12). -/
  cmdOut : Option Command
  /-- `DIAG`, bit 0 `CUR_B13`, bit 1 `CUR_B14`, bit 2 `CUR_RSV` (R18); `none` is the spec's own "no value". -/
  diag : Option (BitVec 3)
  /-- What the unit last handed back (log entry 9). -/
  returned : Returned
deriving DecidableEq, Repr

/-- The encode unit ENC (R10). -/
structure Enc where
  /-- `EPKT[0..15]` (R23). -/
  epkt : Packet
  /-- `TX[0..TX_LEN-1]`, in order (R24). -/
  tx : List Duration
deriving DecidableEq, Repr

/-- What is asked of the machine. The host's moves are R249's: a reset, and a word, which `step` performs only if the host may
request what it names. A component-level test steps the internal operations by hand, which R81 lets a model expose
(log entry 22). -/
inductive Request where
  /-- The host resets the core (R240). -/
  | reset
  /-- The host makes a request. -/
  | host (bytes : List Byte)
  /-- A component-level test makes a request: the host has no such move. -/
  | component (bytes : List Byte)
deriving DecidableEq, Repr

/-- The whole machine: one DEC and one ENC (DESIGN CHOICE, log entry 15), which share no state (R10), the host's receive sequence, and the requests
the host has yet to make. -/
structure State where
  /-- The decode unit. -/
  dec : Dec
  /-- The encode unit. -/
  enc : Enc
  /-- `RX[0..RX_LEN-1]`: the host's, read-only to the core (R12); of any finite length (`RX_MAX` is open, log entry 16). -/
  rx : List Duration
  /-- The requests still to come, the host's and a component test's, first one first: the model's own (log entry 1). -/
  requests : List Request
  /-- How many free values have been drawn: the model's own (log entry 3). -/
  freeCount : Nat
deriving DecidableEq, Repr

/-- How a step stops with a fault. The five failure causes are no faults: they end a DECODE, not the machine (R214). -/
inductive Fault where
  /-- Raised by `step` for a request whose `UOP` is unassigned (R70: "not an operation"). Safe: the machine stops, and no
  claim can rest on an effect. -/
  | unassignedUop (uop : Nat)
deriving DecidableEq, Repr

/-- How a step is refused. -/
inductive Refusal where
  /-- An arm of `exec` without a meaning; no arm has it. Safe: nothing is claimed of the instruction. -/
  | notModelled (mnemonic : String)
  /-- Raised by `step` for bytes that the model's own container gives no meaning (log entry 2). Safe: no instruction is
  refused, only a spelling of none. -/
  | badRequest (why : Reject)
  /-- Raised by `step` for a host's request of an internal operation: the host cannot call them (R81, R249), and the spec gives
  the attempt no effect (log entry 22). Safe: no instruction is refused, only a caller. -/
  | notForHost (i : Instr)
deriving DecidableEq, Repr

/-- `TX_LEN`, the writer's append position (R24, R28). -/
def Enc.txLen (e : Enc) : Nat :=
  e.tx.length

/-- `RX_LEN` (R12). -/
def State.rxLen (s : State) : Nat :=
  s.rx.length

/-- `CARRIER`, a hard-wired output: always 38000 (R25). -/
def State.carrier (_ : State) : BitVec 32 :=
  Config.carrierHz

/-- A packet buffer of zeros. -/
def zeroPacket : Packet :=
  Vector.replicate 16 0#8

/-- DEC after reset: `STATUS` idle, `CMD_OUT` and `DIAG` without value (R32); the rest unspecified by the spec and zero
here (log entry 10). -/
def Dec.reset : Dec where
  cur := ⟨0, 0⟩
  slot := 0
  bitn := 0
  acc := 0#8
  dpkt := zeroPacket
  status := .idle
  cmdOut := none
  diag := none
  returned := .nothing

/-- ENC after reset: `TX_LEN = 0` (R32); `EPKT` unspecified by the spec and zero here (log entry 10). -/
def Enc.reset : Enc where
  epkt := zeroPacket
  tx := []

/-- The machine right after reset (R32, R240), with no request made and no receive sequence given. -/
def State.reset : State where
  dec := Dec.reset
  enc := Enc.reset
  rx := []
  requests := []
  freeCount := 0

end Machine
end Sys2Proof
end

