-- ==== Sys2Proof/Machine/Flags.lean ====
section
/-! DEFINITION. Every condition value of the core: the three-way test of the reader, the result codes, the diagnostic
bits (R29: there are no others, and no operation sets a flag as a side effect). -/

namespace Sys2Proof
namespace Machine

/-- How the remaining length of an entry is classed (R93). -/
inductive Remainder where
  | bit
  | malformed
  | exhausted
deriving DecidableEq, Repr

/-- The three-way test on a signed remaining length, exact and strict, by cross-multiplication (R93, R94, R96, R103). -/
def classify (remaining : Int) : Remainder :=
  if (Config.thirdsDen : Int) * remaining > Config.hiNum * Config.bitPeriod then .bit
  else if (Config.thirdsDen : Int) * remaining > Config.loNum * Config.bitPeriod then .malformed
  else .exhausted

/-- The numbers of `STATUS` (R17). -/
def Status.code : Status → BitVec 3
  | .idle => 0
  | .ok => 1
  | .endOfData => 2
  | .malformedBit => 3
  | .framingViolation => 4
  | .preambleMismatch => 5
  | .checksumMismatch => 6

/-- `code(c)`: the `STATUS` of a failure cause (R210). -/
def Cause.status : Cause → Status
  | .endOfData => .endOfData
  | .malformedBit => .malformedBit
  | .framingViolation => .framingViolation
  | .preambleMismatch => .preambleMismatch
  | .checksumMismatch => .checksumMismatch

/-- `DIAG.CUR_B13`: byte 13 is not 0xFF (R134). -/
def curB13 (p : Packet) : Bool :=
  p[13] != Config.fill13

/-- `DIAG.CUR_B14`: byte 14 is not 0x23 (R134). -/
def curB14 (p : Packet) : Bool :=
  p[14] != Config.fill14

/-- `DIAG.CUR_RSV`: either reserved state bit is set (R134, D24). -/
def curRsv (p : Packet) : Bool :=
  p[10] &&& 0xC0#8 != 0#8

/-- The three bits of `DIAG` for a packet: `CUR_RSV`, `CUR_B14`, `CUR_B13` from bit 2 down (R18). -/
def diagOf (p : Packet) : BitVec 3 :=
  ((BitVec.ofBool (curRsv p)).setWidth 3 <<< 2) ||| ((BitVec.ofBool (curB14 p)).setWidth 3 <<< 1)
    ||| ((BitVec.ofBool (curB13 p)).setWidth 3 <<< 0)

end Machine
end Sys2Proof
end

