-- ==== Sys2Proof/Machine/Operands.lean ====
section
/-! DEFINITION. How every operand is put together, from the wire and to it (R68). -/

namespace Sys2Proof
namespace Machine

/-! ### Duration entries and bits -/

/-- `|d|` in unbounded integers: `|-2^31|` is `2^31`, no wrap (R7, R97; log entry 17). -/
def durationLength (d : Duration) : Nat :=
  d.toInt.natAbs

/-- The logical bit an entry's sign stands for: 0 for a mark, 1 for a space (R61, R93). -/
def bitOfEntry (d : Duration) : Bool :=
  if d.toInt > 0 then false else true

/-- `rem = |d| - USED`, signed (R97). -/
def remainingLength (d : Duration) (used : Nat) : Int :=
  (durationLength d : Int) - used

/-- `+n·T`: a mark of `n` bit periods. -/
def markOf (periods : Nat) : Duration :=
  BitVec.ofInt 32 ((periods * Config.bitPeriod : Nat) : Int)

/-- `-n·T`: a space of `n` bit periods. -/
def spaceOf (periods : Nat) : Duration :=
  BitVec.ofInt 32 (-((periods * Config.bitPeriod : Nat) : Int))

/-- One bit cell as written: a mark for 0, a space for 1, of one period (R62, R171). -/
def cellEntry (b : Bool) : Duration :=
  if b then spaceOf 1 else markOf 1

/-! ### Bytes and bits -/

/-- `0, 1, ..., 7` (the loops over `BITN` and `k`). -/
def bitNumbers : List (Fin 8) :=
  [0, 1, 2, 3, 4, 5, 6, 7]

/-- `0, 1, ..., 15` (the loops over `SLOT` and `i`). -/
def slotNumbers : List (Fin 16) :=
  [0, 1, 2, 3, 4, 5, 6, 7, 8, 9, 10, 11, 12, 13, 14, 15]

/-- `0, 1, ..., 9` (the loop over the preamble). -/
def preambleNumbers : List (Fin 10) :=
  [0, 1, 2, 3, 4, 5, 6, 7, 8, 9]

/-- The data bits of a byte in wire order, bit 0 first (R45). -/
def dataBitsOf (b : Byte) : List Bool :=
  bitNumbers.map fun (k : Fin 8) => b.getLsbD k.val

/-- `ACC := (ACC >> 1) | (zext_8(b) << 7)` (R113). -/
def shiftIn (acc : Byte) (b : Bool) : Byte :=
  (acc >>> 1) ||| ((BitVec.ofBool b).setWidth 8 <<< 7)

/-! ### State byte and Command -/

/-- The state byte of a Command: each boolean at its bit, bits 7:6 zero (R67, R155). -/
def stateByteOf (c : Command) : Byte :=
  ((BitVec.ofBool c.fanOn).setWidth 8 <<< 0)
    ||| ((BitVec.ofBool c.special).setWidth 8 <<< 1)
    ||| ((BitVec.ofBool c.fanExhaust).setWidth 8 <<< 2)
    ||| ((BitVec.ofBool c.coverOpen).setWidth 8 <<< 3)
    ||| ((BitVec.ofBool c.autoMode).setWidth 8 <<< 4)
    ||| ((BitVec.ofBool c.warn).setWidth 8 <<< 5)

/-- `(s >> k) & 1`, as a boolean (R151). -/
def stateBit (state : Byte) (k : Nat) : Bool :=
  ((state >>> k) &&& 1#8) == 1#8

/-- UNPACK's Command: bytes 10, 11 and 12 split into the eight fields (R151). -/
def unpackPacket (p : Packet) : Command where
  fanOn := stateBit p[10] 0
  special := stateBit p[10] 1
  fanExhaust := stateBit p[10] 2
  coverOpen := stateBit p[10] 3
  autoMode := stateBit p[10] 4
  warn := stateBit p[10] 5
  fanSpeed := p[11]
  autoTemperature := p[12]

/-- `XOR5(P)` (R131). -/
def xor5 (p : Packet) : Byte :=
  p[10] ^^^ p[11] ^^^ p[12] ^^^ p[13] ^^^ p[14]

/-- PACK's first fifteen bytes, byte 15 still to be computed (R155). -/
def packBody (c : Command) : Packet :=
  #v[Config.preamble[0], Config.preamble[1], Config.preamble[2], Config.preamble[3], Config.preamble[4],
    Config.preamble[5], Config.preamble[6], Config.preamble[7], Config.preamble[8], Config.preamble[9],
    stateByteOf c, c.fanSpeed, c.autoTemperature, Config.fill13, Config.fill14, 0#8]

/-- PACK's packet: the checksum is computed last, over bytes 10 to 14 in place (R155).
R155's pseudocode is followed also where R157 says otherwise of a re-packed packet's byte 15 (DESIGN CHOICE, log entry 23). -/
def packPacket (c : Command) : Packet :=
  (packBody c).set 15 (xor5 (packBody c))

/-! ### What the writer emits -/

/-- A byte's frame as written: start mark, eight cells, one space of two periods (R64, R171). -/
def byteEntries (b : Byte) : List Duration :=
  markOf 1 :: ((dataBitsOf b).map cellEntry ++ [spaceOf Config.stopBits])

/-- The end marker as written (R65, R171). -/
def endEntry : Duration :=
  spaceOf Config.endWritePeriods

/-- The sixteen byte frames of a packet as written, byte 0 first (R46, R171). -/
def frameEntries (p : Packet) : List Duration :=
  slotNumbers.flatMap fun i => byteEntries p[i]

/-- A packet as written: sixteen byte frames and the end marker (R171). -/
def packetEntries (p : Packet) : List Duration :=
  frameEntries p ++ [endEntry]

end Machine
end Sys2Proof
end

