-- ==== Sys2Proof/Machine/Ops.lean ====
section
/-! DEFINITION. The shared operations: access to the sequences, the reader, the framer, the validator, the failure entry,
the free values, reset by the host. -/

namespace Sys2Proof
namespace Machine

/-! ### Writing the state -/

/-- Replace the decode unit. -/
def State.setDec (s : State) (d : Dec) : State :=
  { s with dec := d }

/-- Replace the encode unit. -/
def State.setEnc (s : State) (e : Enc) : State :=
  { s with enc := e }

/-- The host presents a receive sequence (R191: the argument of DECODE). -/
def State.present (s : State) (rx : List Duration) : State :=
  { s with rx := rx }

/-- Entries arrive at the end of the host's receive sequence (log entry 7). -/
def State.deliver (s : State) (entries : List Duration) : State :=
  { s with rx := s.rx ++ entries }

/-- Count one draw of free values (log entry 3). -/
def State.drawFree (s : State) : State :=
  { s with freeCount := s.freeCount + 1 }

/-- Write the reader's cursor. -/
def Dec.setCur (d : Dec) (c : Cursor) : Dec :=
  { d with cur := c }

/-- Write `SLOT`. -/
def Dec.setSlot (d : Dec) (n : Fin 17) : Dec :=
  { d with slot := n }

/-- Write `BITN`. -/
def Dec.setBitn (d : Dec) (n : Fin 8) : Dec :=
  { d with bitn := n }

/-- Write `ACC`. -/
def Dec.setAcc (d : Dec) (b : Byte) : Dec :=
  { d with acc := b }

/-- `DPKT[i] <- b` (R43). -/
def Dec.setByte (d : Dec) (i : Fin 16) (b : Byte) : Dec :=
  { d with dpkt := d.dpkt.set i b }

/-- Replace all of `DPKT`. -/
def Dec.setDpkt (d : Dec) (p : Packet) : Dec :=
  { d with dpkt := p }

/-- Write `DIAG`, or leave it without value. -/
def Dec.setDiag (d : Dec) (g : Option (BitVec 3)) : Dec :=
  { d with diag := g }

/-- Hand a value back to the caller (log entry 9). -/
def Dec.handBack (d : Dec) (r : Returned) : Dec :=
  { d with returned := r }

/-! ### The sequences -/

/-- `MemRead(RX, i)`: entry `i`, or nothing where `i` is not valid (R41, R42). -/
def memRead (rx : List Duration) (i : Nat) : Option Duration :=
  rx[i]?

/-- `MemWrite(TX, v)`: append one entry (R44). -/
def Enc.memWrite (e : Enc) (v : Duration) : Enc :=
  { e with tx := e.tx ++ [v] }

/-! ### The reader -/

/-- The cursor RD_RESET leaves (R91). -/
def freshCursor : Cursor :=
  ⟨0, 0⟩

/-- NEXT_BIT's loop, at most `turns` turns of it (R93, R104). -/
def nextBitTurns (rx : List Duration) : Nat → Cursor → ReaderOutcome × Cursor
  | 0, c => (.endOfData, c)
  | turns + 1, c =>
    match memRead rx c.idx with
    | none => (.endOfData, c)
    | some d =>
      match classify (remainingLength d c.used) with
      | .bit => (.bit (bitOfEntry d), ⟨c.idx, c.used + Config.bitPeriod⟩)
      | .malformed => (.malformedBit, c)
      | .exhausted => nextBitTurns rx turns ⟨c.idx + 1, 0⟩

/-- NEXT_BIT on a sequence and a cursor: the outcome and the new cursor (R93). The number of turns is R104's bound, which
the loop never outruns (`nextBit_eq` in Laws/Reader.lean). -/
def nextBit (rx : List Duration) (c : Cursor) : ReaderOutcome × Cursor :=
  nextBitTurns rx (rx.length - c.idx + 1) c

/-! ### The framer -/

/-- How a part of FRAME ends: with a value, or with a failure cause; either way the unit is left somewhere. -/
inductive Ran (α : Type) where
  | ok (a : α) (d : Dec)
  | raised (c : Cause) (d : Dec)
deriving DecidableEq, Repr

/-- Go on after success; stop at the first failure (R119). -/
def Ran.andThen {α β : Type} (r : Ran α) (f : α → Dec → Ran β) : Ran β :=
  match r with
  | .ok a d => f a d
  | .raised c d => .raised c d

/-- `get()`: one NEXT_BIT, a reader signal becoming the failure of that name (R112). -/
def getBit (rx : List Duration) (d : Dec) : Ran Bool :=
  match nextBit rx d.cur with
  | (.bit b, c) => .ok b (d.setCur c)
  | (.endOfData, c) => .raised .endOfData (d.setCur c)
  | (.malformedBit, c) => .raised .malformedBit (d.setCur c)

/-- Read a bit that must have the value `want`, else `FramingViolation` (R114, R115, R116). -/
def expectBit (want : Bool) (rx : List Duration) (d : Dec) : Ran Unit :=
  (getBit rx d).andThen fun b d' => if b = want then .ok () d' else .raised .framingViolation d'

/-- Read the data bits with the numbers `ks` into `ACC`, least significant first (R111 step 2, R113). -/
def dataBits (rx : List Duration) : List (Fin 8) → Dec → Ran Unit
  | [], d => .ok () d
  | k :: ks, d => (getBit rx (d.setBitn k)).andThen fun b d' => dataBits rx ks (d'.setAcc (shiftIn d'.acc b))

/-- One byte frame into `DPKT[i]`: start bit, eight data bits, two stop bits (R111). -/
def byteFrame (rx : List Duration) (i : Fin 16) (d : Dec) : Ran Unit :=
  (expectBit false rx (d.setSlot i.castSucc)).andThen fun _ d₁ =>
    (dataBits rx bitNumbers (d₁.setAcc 0#8)).andThen fun _ d₂ =>
      (expectBit true rx d₂).andThen fun _ d₃ =>
        (expectBit true rx d₃).andThen fun _ d₄ => .ok () (d₄.setByte i d₄.acc)

/-- The byte frames of the slots `is`, in order (R46, R111). -/
def byteFrames (rx : List Duration) : List (Fin 16) → Dec → Ran Unit
  | [], d => .ok () d
  | i :: is, d => (byteFrame rx i d).andThen fun _ d' => byteFrames rx is d'

/-- FRAME's pseudocode: sixteen byte frames, then the end marker (R111). -/
def frameLoops (rx : List Duration) (d : Dec) : Ran Unit :=
  (byteFrames rx slotNumbers d).andThen fun _ d' => expectBit true rx (d'.setSlot 16)

/-- The loop variables have no value between operations: free values (R15, log entry 4). -/
def Dec.forgetFramer (d : Dec) (n : Nat) : Dec :=
  ((d.setSlot (Config.freeSlot n)).setBitn (Config.freeBitn n)).setAcc (Config.freeAcc n)

/-- FRAME as an operation: after it the loop variables have no value, and after a failure `DPKT` has none either
(R15, R16, R117). -/
def runFrame (rx : List Duration) (n : Nat) (d : Dec) : Ran Unit :=
  match frameLoops rx d with
  | .ok _ d' => .ok () (d'.forgetFramer n)
  | .raised c d' => .raised c ((d'.forgetFramer n).setDpkt (Config.freePacket n))

/-! ### The validator -/

/-- Check (a): bytes 0 to 9 equal the preamble (R132). -/
def preambleMatches (p : Packet) : Bool :=
  preambleNumbers.all fun i => p[i.val] == Config.preamble[i]

/-- VALIDATE on a packet: the value `DIAG` takes, or the failure cause, the preamble first (R132, R133). -/
def validatePacket (p : Packet) : Except Cause (BitVec 3) :=
  if preambleMatches p then
    if xor5 p = p[15] then .ok (diagOf p) else .error .checksumMismatch
  else .error .preambleMismatch

/-! ### Failure entry -/

/-- `raise c` inside DECODE: `STATUS` takes the cause's code, `CMD_OUT` and `DIAG` lose their value; there is no handler
and nothing is saved (R214, R217). No operation returns from it (R219). -/
def Dec.takeFailure (d : Dec) (c : Cause) : Dec :=
  { d with status := c.status, cmdOut := none, diag := none }

/-- `raise c` inside an operation requested on its own: the cause is handed back (R214, last sentence). -/
def Dec.handFailure (d : Dec) (c : Cause) : Dec :=
  d.handBack (.raised c)

/-- The end of a DECODE that accepts: `DIAG`, `CMD_OUT` and `STATUS = OK` (R191). -/
def Dec.accept (d : Dec) (g : BitVec 3) (c : Command) : Dec :=
  { d with status := .ok, cmdOut := some c, diag := some g }

/-- DECODE on the unit: RD_RESET, FRAME, VALIDATE, UNPACK, stopping at the first failure (R191). -/
def runDecode (rx : List Duration) (n : Nat) (d : Dec) : Dec :=
  match runFrame rx n (d.setCur freshCursor) with
  | .raised c d' => d'.takeFailure c
  | .ok _ d' =>
    match validatePacket d'.dpkt with
    | .error c => d'.takeFailure c
    | .ok g => d'.accept g (unpackPacket d'.dpkt)

/-! ### The writer -/

/-- PACK on the unit (R155). -/
def Enc.pack (e : Enc) (c : Command) : Enc :=
  { e with epkt := packPacket c }

/-- `TX_LEN <- 0` (R192). -/
def Enc.clearTx (e : Enc) : Enc :=
  { e with tx := [] }

/-- WRITE on the unit: append each entry in order (R171). -/
def Enc.write (e : Enc) : Enc :=
  (packetEntries e.epkt).foldl Enc.memWrite e

/-! ### The host -/

/-- What the host reads from `DIAG`: the register while `STATUS = OK`; otherwise it has no value, and the read gives a
free one (R18, R248, log entry 6). -/
def Dec.readDiag (d : Dec) (n : Nat) : BitVec 3 :=
  match d.status, d.diag with
  | .ok, some g => g
  | _, _ => Config.freeDiag n

/-- Reset by the host, at any time no operation is in progress (R240, R249): the units go to their reset values; the
host's own receive sequence and requests stay (DEDUCED, log entry 14). -/
def State.hostReset (s : State) : State :=
  { s with dec := Dec.reset, enc := Enc.reset }

end Machine
end Sys2Proof
end

