-- ==== Sys2Proof/Machine/FieldCodec.lean ====
section
/-! DEFINITION. FieldCodec: UNPACK and PACK (43_field_codec.md). -/

namespace Sys2Proof
namespace Machine

/-- `UNPACK`: the Command in bytes 10 to 12 of `DPKT` is handed back; `CMD_OUT` is DECODE's to write (R151). -/
def execUnpack (s : State) : Host.Outcome State Fault Refusal :=
  .next (s.setDec (s.dec.handBack (.command (unpackPacket s.dec.dpkt))))

/-- `PACK cmd`: all sixteen bytes of `EPKT` (R155). It cannot fail (R156). -/
def execPack (cmd : Command) (s : State) : Host.Outcome State Fault Refusal :=
  .next (s.setEnc (s.enc.pack cmd))

end Machine
end Sys2Proof
end

