-- ==== Sys2Proof/Machine/Framer.lean ====
section
/-! DEFINITION. PacketFramer: FRAME (41_framer.md). -/

namespace Sys2Proof
namespace Machine

/-- `FRAME`: from the cursor where it stands, sixteen byte frames and the end marker into `DPKT`; or the first failure met,
after which `DPKT` has no value (R111, R112, R117). -/
def execFrame (s : State) : Host.Outcome State Fault Refusal :=
  match runFrame s.rx s.freeCount s.dec with
  | .ok _ d => .next (s.drawFree.setDec (d.handBack .done))
  | .raised c d => .next (s.drawFree.setDec (d.handFailure c))

end Machine
end Sys2Proof
end

