-- ==== Sys2Proof/Machine/Reader.lean ====
section
/-! DEFINITION. BitTimingReader: RD_RESET and NEXT_BIT (40_bit_reader.md). -/

namespace Sys2Proof
namespace Machine

/-- `RD_RESET`: the cursor becomes (0, 0); `RX` is not looked at (R91). -/
def execRdReset (s : State) : Host.Outcome State Fault Refusal :=
  .next (s.setDec (s.dec.setCur freshCursor))

/-- `NEXT_BIT`: the reader's loop moves the cursor and hands back one of four outcomes (R92, R93). -/
def execNextBit (s : State) : Host.Outcome State Fault Refusal :=
  let r := nextBit s.rx s.dec.cur
  .next (s.setDec ((s.dec.setCur r.2).handBack (.reader r.1)))

end Machine
end Sys2Proof
end

