-- ==== Sys2Proof/Machine/Registers.lean ====
section
/-! DEFINITION. The result registers of the opcode table: the host reads STATUS or DIAG (10_state.md R17, R18; log entry 8). -/

namespace Sys2Proof
namespace Machine

/-- `STATUS`: the host reads the 3-bit result code; the read changes nothing else (R17, R49). -/
def execStatus (s : State) : Host.Outcome State Fault Refusal :=
  .next (s.setDec (s.dec.handBack (.code s.dec.status.code)))

/-- `DIAG`: the host reads the 3-bit diagnostic register, which has a value only while `STATUS = OK` (R18, R248). -/
def execDiag (s : State) : Host.Outcome State Fault Refusal :=
  .next (s.drawFree.setDec (s.dec.handBack (.code (s.dec.readDiag s.freeCount))))

end Machine
end Sys2Proof
end

