-- ==== Sys2Proof/Machine/TopLevel.lean ====
section
/-! DEFINITION. The two host-visible operations: DECODE and ENCODE (45_top_level.md). -/

namespace Sys2Proof
namespace Machine

/-- `DECODE rx`: the sequence is presented, then RD_RESET, FRAME, VALIDATE, UNPACK; `STATUS`, `CMD_OUT` and `DIAG` hold the
verdict (R191, R214). -/
def execDecode (rx : List Duration) (s : State) : Host.Outcome State Fault Refusal :=
  .next ((s.present rx).drawFree.setDec (runDecode rx s.freeCount s.dec))

/-- `ENCODE cmd`: PACK, `TX_LEN <- 0`, WRITE (R192). -/
def execEncode (cmd : Command) (s : State) : Host.Outcome State Fault Refusal :=
  .next (s.setEnc (s.enc.pack cmd).clearTx.write)

end Machine
end Sys2Proof
end

