-- ==== Sys2Proof/Machine/Validator.lean ====
section
/-! DEFINITION. PacketValidator: VALIDATE (42_validator.md). -/

namespace Sys2Proof
namespace Machine

/-- `VALIDATE`: preamble, then checksum, then `DIAG`; on a failure the cause is handed back and `DIAG` has no value
(R132, R214; DEDUCED, log entry 11). No byte of `DPKT` changes (R130). -/
def execValidate (s : State) : Host.Outcome State Fault Refusal :=
  match validatePacket s.dec.dpkt with
  | .ok g => .next (s.setDec ((s.dec.setDiag (some g)).handBack .done))
  | .error c => .next (s.setDec ((s.dec.setDiag none).handFailure c))

end Machine
end Sys2Proof
end

