-- ==== Sys2Proof/Machine/Wire.lean ====
section
/-! DEFINITION. The wire formats of the opcode table: an element of the wire arrives, as written, at the end of the host's receive
sequence (30_encoding.md; log entry 7). -/

namespace Sys2Proof
namespace Machine

/-- `WIRE.BIT_CELL.MARK`: a mark of one period, logical 0 (R61, R62). -/
def execWireBitCellMark (s : State) : Host.Outcome State Fault Refusal :=
  .next (s.deliver [cellEntry false])

/-- `WIRE.BIT_CELL.SPACE`: a space of one period, logical 1 (R61, R62). -/
def execWireBitCellSpace (s : State) : Host.Outcome State Fault Refusal :=
  .next (s.deliver [cellEntry true])

/-- `WIRE.BYTE_FRAME`: start cell, eight data cells, both stop cells (R64). -/
def execWireByteFrame (b : Byte) (s : State) : Host.Outcome State Fault Refusal :=
  .next (s.deliver (byteEntries b))

/-- `WIRE.END_MARKER`: a space of eight periods (R65). -/
def execWireEndMarker (s : State) : Host.Outcome State Fault Refusal :=
  .next (s.deliver [endEntry])

/-- `WIRE.PACKET`: sixteen byte frames, byte 0 first, without the end marker, which is a row of its own (R46, R66). -/
def execWirePacket (p : Packet) (s : State) : Host.Outcome State Fault Refusal :=
  .next (s.deliver (frameEntries p))

/-- `WIRE.STATE_BYTE`: the byte `rrwacxsf` in its frame (R67, R64). -/
def execWireStateByte (sb : StateByte) (s : State) : Host.Outcome State Fault Refusal :=
  .next (s.deliver (byteEntries (byteOfStateByte sb)))

end Machine
end Sys2Proof
end

