-- ==== Sys2Proof/Machine/Writer.lean ====
section
/-! DEFINITION. PulseSequenceWriter: WRITE (44_pulse_writer.md). -/

namespace Sys2Proof
namespace Machine

/-- `WRITE`: the 161 entries of `EPKT` are appended to `TX`, whatever `TX` holds (R171, R172; DEDUCED, log
entry 13). -/
def execWrite (s : State) : Host.Outcome State Fault Refusal :=
  .next (s.setEnc s.enc.write)

end Machine
end Sys2Proof
end

