-- ==== Sys2Proof/Machine/Dispatch.lean ====
section
/-! DEFINITION. Which meaning each instruction has: one arm per row of the opcode table. -/

namespace Sys2Proof
namespace Machine

/-- The effect of one instruction. -/
def exec (i : Instr) (s : State) : Host.Outcome State Fault Refusal :=
  match i with
  | .rdReset => Sys2Proof.Machine.execRdReset s
  | .nextBit => Sys2Proof.Machine.execNextBit s
  | .frame => Sys2Proof.Machine.execFrame s
  | .validate => Sys2Proof.Machine.execValidate s
  | .unpack => Sys2Proof.Machine.execUnpack s
  | .pack cmd => Sys2Proof.Machine.execPack cmd s
  | .write => Sys2Proof.Machine.execWrite s
  | .decode rx => Sys2Proof.Machine.execDecode rx s
  | .encode cmd => Sys2Proof.Machine.execEncode cmd s
  | .wireBitCellMark => Sys2Proof.Machine.execWireBitCellMark s
  | .wireBitCellSpace => Sys2Proof.Machine.execWireBitCellSpace s
  | .wireByteFrame b => Sys2Proof.Machine.execWireByteFrame b s
  | .wireEndMarker => Sys2Proof.Machine.execWireEndMarker s
  | .wirePacket p => Sys2Proof.Machine.execWirePacket p s
  | .wireStateByte sb => Sys2Proof.Machine.execWireStateByte sb s
  | .status => Sys2Proof.Machine.execStatus s
  | .diag => Sys2Proof.Machine.execDiag s

end Machine
end Sys2Proof
end

