-- ==== Sys2Proof/Machine/Fetch.lean ====
section
/-! DEFINITION. Where the next instruction comes from: the requests, first one first (log entry 1), and which of them the host
may make (R249). -/

namespace Sys2Proof
namespace Machine

/-- The next request and the state without it, if there is one. -/
def fetchRequest (s : State) : Option (Request × State) :=
  match s.requests with
  | [] => none
  | r :: rest => some (r, { s with requests := rest })

/-- What the host may do (R249): DECODE and ENCODE, but none of the seven internal operations (R81); what arrives on the wire is
written to the host's own `RX` (R40, R55), and the host reads `STATUS` and `DIAG` (R17, R18, R248). -/
def hostMay : Instr → Bool
  | .rdReset => false
  | .nextBit => false
  | .frame => false
  | .validate => false
  | .unpack => false
  | .pack _ => false
  | .write => false
  | .decode _ => true
  | .encode _ => true
  | .wireBitCellMark => true
  | .wireBitCellSpace => true
  | .wireByteFrame _ => true
  | .wireEndMarker => true
  | .wirePacket _ => true
  | .wireStateByte _ => true
  | .status => true
  | .diag => true

/-- How a request that names no instruction stops the step: an unassigned `UOP` is no operation (R70); anything else is a
fault of the model's own container. -/
def stopOf (why : Reject) : Host.Outcome State Fault Refusal :=
  match why with
  | .unassignedUop uop => .fault (.unassignedUop uop)
  | .empty => .refused (.badRequest .empty)
  | .operandLength => .refused (.badRequest .operandLength)
  | .commandReserved => .refused (.badRequest .commandReserved)
  | .bitCellPattern => .refused (.badRequest .bitCellPattern)
  | .byteFramePattern => .refused (.badRequest .byteFramePattern)
  | .endMarkerPattern => .refused (.badRequest .endMarkerPattern)
  | .packetPattern => .refused (.badRequest .packetPattern)

end Machine
end Sys2Proof
end

