-- ==== Sys2Proof/Machine/Step.lean ====
section
/-! DEFINITION. One step: the next request is taken and performed whole (R11: every operation is one atomic transition). -/

namespace Sys2Proof
namespace Machine

/-- One step. With no request to make the machine stays as it is (R193, R194). The host gets what it may request and nothing
else (R249); a component-level test gets every operation (R81). -/
def step (s : State) : Host.Outcome State Fault Refusal :=
  match fetchRequest s with
  | none => .next s
  | some (.reset, s') => .next s'.hostReset
  | some (.host bytes, s') =>
    match decode bytes with
    | .ok i => if hostMay i then exec i s' else .refused (.notForHost i)
    | .error why => stopOf why
  | some (.component bytes, s') =>
    match decode bytes with
    | .ok i => exec i s'
    | .error why => stopOf why

/-- The state whose next request is a word of the opcode table, made at component level, so that every row of the table
runs (log entries 1 and 22). -/
def State.withFetchWord (s : State) (nbits w : Nat) : State :=
  { s with requests := .component (tableRequest nbits w) :: s.requests }

end Machine
end Sys2Proof
end

