-- ==== Sys2Proof/Safety.lean ====
section
/-! DEFINITION. The terms that statements about the machine use: the bits a cursor reads, the bits of a packet on the wire,
the verdict of a DECODE, and the invariants. -/

namespace Sys2Proof
namespace Machine

/-- From cursor `c` successive NEXT_BITs on `rx` return the bits `bs`, in order, and leave the cursor `c'`. -/
def Reads (rx : List Duration) : Cursor → List Bool → Cursor → Prop
  | c, [], c' => c = c'
  | c, b :: bs, c' => ∃ c₁, nextBit rx c = (.bit b, c₁) ∧ Reads rx c₁ bs c'

/-- The eleven bit cells of a byte frame in time order, `0abcdefgh11` (R64). -/
def byteBits (b : Byte) : List Bool :=
  false :: ([b.getLsbD 0, b.getLsbD 1, b.getLsbD 2, b.getLsbD 3, b.getLsbD 4, b.getLsbD 5, b.getLsbD 6, b.getLsbD 7]
    ++ [true, true])

/-- The 177 bit cells FRAME reads of a packet: sixteen byte frames and one cell of the end marker (R65). -/
def packetBits (p : Packet) : List Bool :=
  p.toList.flatMap byteBits ++ [true]

/-- Whether cell `k` of the 177 is a start bit, a stop bit or the end marker, the cells whose value FRAME tests (R218). -/
def testedCell (k : Nat) : Bool :=
  k == 176 || k % 11 == 0 || k % 11 == 9 || k % 11 == 10

/-- How many whole bit cells an entry holds: `floor((L + 266) / 800)` (R99). -/
def cellsIn (d : Duration) : Nat :=
  (durationLength d + 266) / 800

/-- An entry whose length lies within 266 of `800·n` for some `n ≥ 1` (R203). -/
def CleanEntry (d : Duration) : Prop :=
  ∃ n : Nat, 1 ≤ n ∧ 800 * n ≤ durationLength d + 266 ∧ durationLength d ≤ 800 * n + 266

/-- What the host reads after a DECODE: `STATUS`, `CMD_OUT`, `DIAG` (R193). -/
def Dec.verdict (d : Dec) : Status × Option Command × Option (BitVec 3) :=
  (d.status, d.cmdOut, d.diag)

/-- VALIDATE of the packet `p`, from any state that holds it in `DPKT`, completes and hands back `r`. -/
def ValidatesTo (p : Packet) (r : Returned) : Prop :=
  ∀ s : State, s.dec.dpkt = p → ∃ t : State, exec .validate s = .next t ∧ t.dec.returned = r

/-- DECODE of `rx`, from any state, completes with the verdict `v`. -/
def DecodesTo (rx : List Duration) (v : Status × Option Command × Option (BitVec 3)) : Prop :=
  ∀ s : State, ∃ t : State, exec (.decode rx) s = .next t ∧ t.dec.verdict = v

/-- DECODE of `rx`, from any state, completes with the verdict `v` and leaves the cursor `c`: it stopped at that read. -/
def DecodesToAt (rx : List Duration) (v : Status × Option Command × Option (BitVec 3)) (c : Cursor) : Prop :=
  ∀ s : State, ∃ t : State, exec (.decode rx) s = .next t ∧ t.dec.verdict = v ∧ t.dec.cur = c

/-- Who an instruction belongs to: a unit of R80's table, or, for the elements of the wire, the host. -/
inductive Owner where
  | dec
  | enc
  | host
deriving DecidableEq, Repr

/-- The unit of each operation (R80); `STATUS` and `DIAG` are DEC's registers, and `RX` is the host's (R40). -/
def ownerOf : Instr → Owner
  | .rdReset => .dec
  | .nextBit => .dec
  | .frame => .dec
  | .validate => .dec
  | .unpack => .dec
  | .pack _ => .enc
  | .write => .enc
  | .decode _ => .dec
  | .encode _ => .enc
  | .wireBitCellMark => .host
  | .wireBitCellSpace => .host
  | .wireByteFrame _ => .host
  | .wireEndMarker => .host
  | .wirePacket _ => .host
  | .wireStateByte _ => .host
  | .status => .dec
  | .diag => .dec

/-- The state with the cursor moved to `c`. -/
def State.atCursor (s : State) (c : Cursor) : State :=
  s.setDec (s.dec.setCur c)

/-- The cursor stands in the sequence, has consumed whole bit periods of its entry and at most 266 microseconds more than
it holds, and none past the end (R13, R14, R98). -/
def CursorOk (rx : List Duration) (c : Cursor) : Prop :=
  c.idx ≤ rx.length ∧ 800 ∣ c.used ∧ (c.idx = rx.length → c.used = 0)
    ∧ ∀ d, rx[c.idx]? = some d → c.used ≤ durationLength d + 266

/-- `CMD_OUT` has a value exactly while `STATUS = OK` (R19). -/
def ResultOk (d : Dec) : Prop :=
  d.status = .ok ↔ d.cmdOut.isSome

/-- `TX` holds whole WRITEs, and no entry but the four that WRITE appends (R44, R172). -/
def TransmitOk (e : Enc) : Prop :=
  161 ∣ e.txLen ∧ ∀ d ∈ e.tx, d.toInt = 800 ∨ d.toInt = -800 ∨ d.toInt = -1600 ∨ d.toInt = -6400

/-- The invariant every step keeps. -/
def State.Inv (s : State) : Prop :=
  CursorOk s.rx s.dec.cur ∧ ResultOk s.dec ∧ TransmitOk s.enc

/-- No request still to come is a component test's: every one is a move R249 gives the host. -/
def State.HostOnly (s : State) : Prop :=
  ∀ bytes : List Byte, .component bytes ∉ s.requests

/-- What holds besides while only the host makes requests (R81, R249): `DIAG` has a value exactly while `STATUS = OK`
(R18), and `TX` is empty or one whole sequence (R24). -/
def State.HostInv (s : State) : Prop :=
  (s.dec.status = .ok ↔ s.dec.cmdOut.isSome) ∧ (s.dec.status = .ok ↔ s.dec.diag.isSome)
    ∧ (s.enc.txLen = 0 ∨ s.enc.txLen = 161)

end Machine
end Sys2Proof
end

