-- ==== Sys2Proof/Certificates/Slice0/Obligations.lean ====
section
/-! DEFINITION. The statements for the provers. Each docstring names the rule of spec/ it formalises. -/

open Sys2Proof Sys2Proof.Machine

/-! ### Requests, decoding, steps -/

/-- Decoding what the encoder writes for a well-formed instruction gives that instruction back, every operand kept
(R80; the byte container is the model's choice, log entry 2). -/
def Obligations.DecodeOfEncodeIsTheInstruction : Prop :=
  ∀ i : Instr, i.wellFormed = true → decode (encode i) = .ok i

/-- Whatever the decoder accepts is well formed (R66: a WIRE.PACKET begins with the preamble). -/
def Obligations.DecodedInstructionsAreWellFormed : Prop :=
  ∀ (bytes : List Byte) (i : Instr), decode bytes = .ok i → i.wellFormed = true

/-- The codes of R80's table: bits 3:0 of the first byte select the operation, whatever bits 7:4 are (the table's mask
0xF); operands as the model's container lays them out (log entry 2). -/
def Obligations.OperationCodesSelectTheOperations : Prop :=
  ∀ b : Byte,
    (b.toNat % 16 = 1 → decode [b] = .ok .rdReset) ∧ (b.toNat % 16 = 2 → decode [b] = .ok .nextBit) ∧
    (b.toNat % 16 = 3 → decode [b] = .ok .frame) ∧ (b.toNat % 16 = 4 → decode [b] = .ok .validate) ∧
    (b.toNat % 16 = 5 → decode [b] = .ok .unpack) ∧
    (b.toNat % 16 = 6 → decode [b, 0x0D#8, 100#8, 68#8] =
      .ok (.pack ⟨true, false, true, true, false, false, 100#8, 68#8⟩)) ∧
    (b.toNat % 16 = 7 → decode [b] = .ok .write) ∧
    (b.toNat % 16 = 8 → decode [b, 0x40#8, 0x06#8, 0#8, 0#8, 0xE0#8, 0xFC#8, 0xFF#8, 0xFF#8] =
      .ok (.decode [1600#32, BitVec.ofInt 32 (-800)])) ∧
    (b.toNat % 16 = 9 → decode [b, 0x0D#8, 100#8, 68#8] =
      .ok (.encode ⟨true, false, true, true, false, false, 100#8, 68#8⟩))

/-- A few words written out from the spec's patterns: the state byte `rrwacxsf` (R67), the byte frame `0abcdefgh11` of
0x0D, whose cells are `0 10110000 11` (R64), the two bit cells (R61), and the code of `PACK` (R80). -/
def Obligations.WrittenOutWordsDecode : Prop :=
  decode [0x50#8, 0b11100101#8] = .ok (.wireStateByte ⟨3#2, true, false, false, true, false, true⟩) ∧
  decode [0x20#8, 0b11000011#8, 0b010#8] = .ok (.wireByteFrame 0x0D#8) ∧
  decode [0x10#8, 0#8] = .ok .wireBitCellMark ∧ decode [0x10#8, 1#8] = .ok .wireBitCellSpace ∧
  decode [0x06#8, 0b00100100#8, 0x64#8, 0x44#8] =
    .ok (.pack ⟨false, false, true, false, false, true, 0x64#8, 0x44#8⟩)

/-- A request, the host's or a component test's, whose operation code is 0xA to 0xF, or 0x0 with nothing of the model's in bits 7:4, is no operation: the step
faults and names the code (R70; that the model stops there is its choice, log entry 2). -/
def Obligations.UnassignedCodesAreNoOperations : Prop :=
  ∀ (s : State) (b : Byte) (operands : List Byte) (rest : List Request),
    s.requests = .host (b :: operands) :: rest ∨ s.requests = .component (b :: operands) :: rest →
    10 ≤ b.toNat % 16 ∨ (b.toNat % 16 = 0 ∧ (b.toNat < 16 ∨ 128 ≤ b.toNat)) →
    step s = .fault (.unassignedUop (b.toNat % 16))

/-- A step takes the first request and performs the instruction it decodes to, and does nothing else (R11; the queue of
requests is the model's own, log entry 1): any instruction for a component-level test (R81), and for the host whatever it
may request (R249; log entry 22). -/
def Obligations.StepRunsTheDecodedInstruction : Prop :=
  ∀ (s : State) (bytes : List Byte) (rest : List Request) (i : Instr), decode bytes = .ok i →
    (s.requests = .component bytes :: rest → step s = exec i { s with requests := rest }) ∧
    (s.requests = .host bytes :: rest → hostMay i = true → step s = exec i { s with requests := rest })

/-- The host cannot call the internal operations: its request of any of the seven is turned away, and what it may request is
every other instruction, and completes (R81, R249; that the model turns the attempt away with a refusal, that arrivals and
reads are requests of the host, and that a read of `DIAG` without value completes, are its choices, log entries 22, 7, 8
and 6). -/
def Obligations.TheHostCannotCallTheInternalOperations : Prop :=
  ∀ (s : State) (bytes : List Byte) (rest : List Request) (i : Instr),
    s.requests = .host bytes :: rest → decode bytes = .ok i →
    ((i = .rdReset ∨ i = .nextBit ∨ i = .frame ∨ i = .validate ∨ i = .unpack ∨ (∃ c, i = .pack c) ∨ i = .write) →
      step s = .refused (.notForHost i)) ∧
    (i ≠ .rdReset → i ≠ .nextBit → i ≠ .frame → i ≠ .validate → i ≠ .unpack → (∀ c, i ≠ .pack c) → i ≠ .write →
      ∃ t : State, step s = .next t)

/-- Without a request nothing changes: a result stays until the next operation replaces it (R193, R194; the queue of
requests is the model's own, log entry 1). -/
def Obligations.StepWithoutRequestChangesNothing : Prop :=
  ∀ s : State, s.requests = [] → step s = .next s

/-- The host's reset puts `STATUS`, `CMD_OUT`, `DIAG`, `TX_LEN` and `CARRIER` at R32's values and leaves what is the host's
own, from any state (R240; what is left in place is deduced, log entry 14). -/
def Obligations.HostResetGivesTheResetValues : Prop :=
  ∀ (s : State) (rest : List Request), s.requests = .reset :: rest →
    ∃ t : State, step s = .next t ∧ t.dec.status.code = 0#3 ∧ t.dec.cmdOut = none ∧ t.dec.diag = none ∧
      t.enc.txLen = 0 ∧ t.enc.tx = [] ∧ t.carrier = 38000#32 ∧ t.rx = s.rx ∧ t.requests = rest

/-- The reset values of R32's table, and R32's reason why the others are immaterial: from every state whatever, each DECODE
and each ENCODE has the result it has from the reset state. -/
def Obligations.ResetValuesAndTheirImmateriality : Prop :=
  (State.reset.dec.status.code = 0#3 ∧ State.reset.dec.cmdOut = none ∧ State.reset.dec.diag = none ∧
    State.reset.enc.txLen = 0 ∧ State.reset.enc.tx = [] ∧ State.reset.carrier = 38000#32) ∧
  ∀ s : State,
    (∀ rx, ∃ t t₀ : State, exec (.decode rx) s = .next t ∧ exec (.decode rx) State.reset = .next t₀ ∧
      t.dec.verdict = t₀.dec.verdict) ∧
    (∀ cmd, ∃ t t₀ : State, exec (.encode cmd) s = .next t ∧ exec (.encode cmd) State.reset = .next t₀ ∧
      t.enc = t₀.enc ∧ t.carrier = t₀.carrier)

/-- Every instruction completes, from every state: no operation can hang, wait or deadlock (R252), and the five failure
causes end a DECODE, not the machine (R214). The rules speak of the nine operations. That the six wire rows and the two
register rows have an event that completes is the model's choice (log entries 7 and 8), and so is that a read of `DIAG`
completes while it has no value, where U7 offers to refuse it (log entry 6). -/
def Obligations.EveryInstructionCompletes : Prop :=
  ∀ (i : Instr) (s : State), ∃ t : State, exec i s = .next t

/-! ### Invariants -/

/-- The reset state meets both invariants: the result registers at R32's values, and the cursor at (0, 0), which is the model's
choice (log entry 10). -/
def Obligations.ResetMeetsTheInvariants : Prop :=
  State.reset.Inv ∧ State.reset.HostInv

/-- Every step keeps the invariant: the cursor stays in the sequence on whole bit periods with at most 266 microseconds
over (R13, R14), `CMD_OUT` has a value exactly while `STATUS = OK` (R19), `TX` holds whole WRITEs of the four entries
(R44, R172). It holds at component level too, where a WRITE on a non-empty `TX` appends (log entry 13), arrivals extend `RX`
(log entry 7), and a reset keeps `RX` and puts the cursor at (0, 0) (log entries 14 and 10). -/
def Obligations.EveryStepKeepsTheInvariant : Prop :=
  ∀ s t : State, s.Inv → step s = .next t → t.Inv

/-- DECODE and ENCODE, the two host-visible operations, keep `CMD_OUT` and `DIAG` valued exactly while `STATUS = OK`, and `TX` empty or one
whole sequence (R18, R19, R24, R81). -/
def Obligations.HostOperationsKeepTheResultInvariant : Prop :=
  ∀ (i : Instr) (s t : State), i.hostVisible = true → s.HostInv → exec i s = .next t → t.HostInv

/-- A step of the host (a reset, a DECODE, an ENCODE, an arrival, a read, or none) keeps `CMD_OUT` and `DIAG` valued exactly
while `STATUS = OK` and `TX` empty or one whole sequence, and what is still to come stays the host's (R18, R19, R24, R249;
the requests are the model's own, log entries 1, 7, 8 and 22). -/
def Obligations.HostStepsKeepTheResultInvariant : Prop :=
  ∀ s t : State, s.HostOnly → s.HostInv → step s = .next t → t.HostOnly ∧ t.HostInv

/-- The host can do nothing else to the core: of its steps, only a reset or a DECODE writes the cursor, the framer's variables,
`DPKT`, `STATUS`, `CMD_OUT` or `DIAG`, and only a reset or an ENCODE writes `EPKT` or `TX`; `CARRIER` stays 38000 (R249,
R240; a read leaves the value read in the model's own register, log entries 8, 9 and 22). -/
def Obligations.HostStepsWriteOnlyThroughTheirOperations : Prop :=
  ∀ s t : State, s.HostOnly → step s = .next t → (∀ rest, s.requests ≠ .reset :: rest) →
    ((∀ bytes rest rx, s.requests = .host bytes :: rest → decode bytes ≠ .ok (.decode rx)) →
      t.dec = { s.dec with returned := t.dec.returned }) ∧
    ((∀ bytes rest cmd, s.requests = .host bytes :: rest → decode bytes ≠ .ok (.encode cmd)) → t.enc = s.enc) ∧
    t.carrier = 38000#32

/-! ### The units -/

/-- DEC and ENC share no state: an operation of one leaves the other as it was, and an operation of DEC (or an arrival on
the wire, log entry 7) and one of ENC give the same state in either order (R10). -/
def Obligations.UnitsDoNotInterfere : Prop :=
  (∀ (i : Instr) (s t : State), exec i s = .next t →
    (ownerOf i ≠ .enc → t.enc = s.enc) ∧ (ownerOf i ≠ .dec → t.dec = s.dec) ∧ t.requests = s.requests) ∧
  ∀ (i j : Instr) (s : State), ownerOf i ≠ .enc → ownerOf j = .enc →
    ∃ a b t : State, exec i s = .next a ∧ exec j a = .next t ∧ exec j s = .next b ∧ exec i b = .next t

/-! ### BitTimingReader -/

/-- RD_RESET sets the cursor to (0, 0), whatever it was and whatever `RX` is, and changes nothing else (R91). -/
def Obligations.RdResetZeroesTheCursor : Prop :=
  ∀ s : State, exec .rdReset s = .next { s with dec := { s.dec with cur := ⟨0, 0⟩ } }

/-- NEXT_BIT where the remaining length exceeds two thirds of a bit period: exactly 800 more are consumed, and the bit is
the sign of the whole entry, which is not zero (R93, R94; the outcome is read in `returned`, log entry 9). -/
def Obligations.NextBitTakesOneBitPeriod : Prop :=
  ∀ (s : State) (d : Duration), s.rx[s.dec.cur.idx]? = some d →
    3 * ((d.toInt.natAbs : Int) - s.dec.cur.used) > 2 * 800 →
    (d.toInt.natAbs : Int) - s.dec.cur.used ≥ 534 ∧ d.toInt ≠ 0 ∧
    exec .nextBit s = .next { s with dec := { s.dec with
      cur := ⟨s.dec.cur.idx, s.dec.cur.used + 800⟩, returned := .reader (.bit (decide (d.toInt < 0))) } }

/-- NEXT_BIT where 267 to 533 microseconds remain: `MalformedBit`, and the cursor does not move (R96; the outcome is
read in `returned`, log entry 9). -/
def Obligations.NextBitReportsAMalformedRemainder : Prop :=
  ∀ (s : State) (d : Duration), s.rx[s.dec.cur.idx]? = some d →
    267 ≤ (d.toInt.natAbs : Int) - s.dec.cur.used → (d.toInt.natAbs : Int) - s.dec.cur.used ≤ 533 →
    exec .nextBit s = .next { s with dec := { s.dec with returned := .reader .malformedBit } }

/-- NEXT_BIT where at most 266 microseconds remain (none, or a deficit, included): the entry is left silently, nothing of it
carried over, and the reading goes on from the next entry (R95). -/
def Obligations.NextBitAdvancesPastAnExhaustedEntry : Prop :=
  ∀ (s : State) (d : Duration), s.rx[s.dec.cur.idx]? = some d →
    (d.toInt.natAbs : Int) - s.dec.cur.used ≤ 266 →
    exec .nextBit s = exec .nextBit (s.atCursor ⟨s.dec.cur.idx + 1, 0⟩)

/-- NEXT_BIT where no entry is left: `EndOfData`, and the cursor does not move; and wherever a cursor that R13 and R14 admit
meets `EndOfData`, it ends at (`RX_LEN`, 0) (R98; the outcome is read in `returned`, log entry 9). -/
def Obligations.NextBitAtTheEndIsEndOfData : Prop :=
  (∀ s : State, s.rx.length ≤ s.dec.cur.idx →
    exec .nextBit s = .next { s with dec := { s.dec with returned := .reader .endOfData } }) ∧
  ∀ s t : State, CursorOk s.rx s.dec.cur → exec .nextBit s = .next t → t.dec.returned = .reader .endOfData →
    t.dec.cur = ⟨s.rx.length, 0⟩

/-- NEXT_BIT completes from every state: it hands back exactly one of the four outcomes, moves the cursor and never back,
and changes nothing else (R13, R92; the outcome is read in `returned`, log entry 9). -/
def Obligations.NextBitCompletesAndOnlyMovesTheCursor : Prop :=
  ∀ s : State, ∃ (o : ReaderOutcome) (c : Cursor),
    exec .nextBit s = .next { s with dec := { s.dec with cur := c, returned := .reader o } } ∧
    (o = .bit false ∨ o = .bit true ∨ o = .endOfData ∨ o = .malformedBit) ∧ s.dec.cur.idx ≤ c.idx

/-- What one entry of length `L` yields (R99): `n = floor((L + 266) / 800)` equal bits, and then, with `r = L - 800 n`, the
next entry if `r ≤ 266` and `MalformedBit` if `r ≥ 267` (the outcomes are read in `returned`, log entry 9). -/
def Obligations.AnEntryYieldsItsCells : Prop :=
  ∀ (s : State) (i : Nat) (d : Duration) (n : Nat) (r : Int), s.rx[i]? = some d →
    n = (d.toInt.natAbs + 266) / 800 → r = (d.toInt.natAbs : Int) - 800 * n →
    (-266 ≤ r ∧ r ≤ 533) ∧
    (∀ k < n, exec .nextBit (s.atCursor ⟨i, 800 * k⟩) = .next { s with dec := { s.dec with
      cur := ⟨i, 800 * (k + 1)⟩, returned := .reader (.bit (decide (d.toInt < 0))) } }) ∧
    (r ≤ 266 → exec .nextBit (s.atCursor ⟨i, 800 * n⟩) = exec .nextBit (s.atCursor ⟨i + 1, 0⟩)) ∧
    (267 ≤ r → exec .nextBit (s.atCursor ⟨i, 800 * n⟩) = .next { s with dec := { s.dec with
      cur := ⟨i, 800 * n⟩, returned := .reader .malformedBit } })

/-- A reader signal repeats for ever: after `EndOfData` or `MalformedBit` a further NEXT_BIT changes nothing and hands back
the same (R100; the outcome is read in `returned`, log entry 9). -/
def Obligations.ReaderSignalsRepeat : Prop :=
  ∀ s t : State, exec .nextBit s = .next t →
    t.dec.returned = .reader .endOfData ∨ t.dec.returned = .reader .malformedBit → exec .nextBit t = .next t

/-- Entries of at most 266 microseconds, any number of them, of either sign, anywhere in the sequence, yield no bit and no
signal: the bits read and the verdict of DECODE are the same without them (R101). -/
def Obligations.ShortEntriesNeverMatter : Prop :=
  ∀ before noise after : List Duration, (∀ d ∈ noise, d.toInt.natAbs ≤ 266) →
    (∀ bits, (∃ c, Reads (before ++ noise ++ after) ⟨0, 0⟩ bits c) ↔ ∃ c, Reads (before ++ after) ⟨0, 0⟩ bits c) ∧
    ∀ s : State, ∃ t t' : State, exec (.decode (before ++ noise ++ after)) s = .next t ∧
      exec (.decode (before ++ after)) s = .next t' ∧ t.dec.verdict = t'.dec.verdict

/-- Replacing a run of neighbouring same-sign entries by one entry of their summed length leaves the bits read as they were,
where every entry lies within 266 of a multiple of 800 and so does the sum, at the summed multiple; the verdict of DECODE
is the same too. Where the sum strays it need not be so: `[+1000, +1000]` against `[+2000]` (R203). -/
def Obligations.MergingEntriesKeepsTheBits : Prop :=
  (∀ (before run after : List Duration) (m : Duration),
    (∀ d ∈ before ++ run ++ after, CleanEntry d) → run ≠ [] →
    (∀ d ∈ run, (d.toInt < 0 ↔ m.toInt < 0)) →
    m.toInt.natAbs = (run.map fun d => d.toInt.natAbs).sum → CleanEntry m →
    cellsIn m = (run.map cellsIn).sum →
    (∀ bits, (∃ c, Reads (before ++ run ++ after) ⟨0, 0⟩ bits c) ↔
      ∃ c, Reads (before ++ [m] ++ after) ⟨0, 0⟩ bits c) ∧
    ∀ s : State, ∃ t t' : State, exec (.decode (before ++ run ++ after)) s = .next t ∧
      exec (.decode (before ++ [m] ++ after)) s = .next t' ∧ t.dec.verdict = t'.dec.verdict) ∧
  (∃ c, Reads [1000#32, 1000#32] ⟨0, 0⟩ [false, false] c ∧ (nextBit [1000#32, 1000#32] c).1 = .endOfData) ∧
  ∃ c, Reads [2000#32] ⟨0, 0⟩ [false, false] c ∧ (nextBit [2000#32] c).1 = .malformedBit

/-! ### PacketFramer -/

/-- FRAME where the 177 cells of a packet are there to be read: it completes with that packet in `DPKT`, the cursor behind
the last cell read, and success handed back (log entry 9); the results, the encode unit and `RX` are untouched (R111,
R113). -/
def Obligations.FrameAssemblesThePacket : Prop :=
  ∀ (s : State) (p : Packet) (c : Cursor), Reads s.rx s.dec.cur (packetBits p) c →
    ∃ t : State, exec .frame s = .next t ∧ t.dec.dpkt = p ∧ t.dec.cur = c ∧ t.dec.returned = .done ∧
      t.dec.verdict = s.dec.verdict ∧ t.enc = s.enc ∧ t.rx = s.rx ∧ t.requests = s.requests

/-- FRAME where the reader signals at any of the 177 reads: it ends with that signal as the cause, the cursor where the
reader stopped, and no other effect on results, encode unit or `RX` (R112; the cause is read in `returned`, log entry 9). -/
def Obligations.FrameKeepsTheReaderSignal : Prop :=
  ∀ (s : State) (p : Packet) (k : Nat) (c c' : Cursor), k < 177 →
    Reads s.rx s.dec.cur ((packetBits p).take k) c →
    (nextBit s.rx c = (.endOfData, c') → ∃ t : State, exec .frame s = .next t ∧
      t.dec.returned = .raised .endOfData ∧ t.dec.cur = c' ∧
      t.dec.verdict = s.dec.verdict ∧ t.enc = s.enc ∧ t.rx = s.rx ∧ t.requests = s.requests) ∧
    (nextBit s.rx c = (.malformedBit, c') → ∃ t : State, exec .frame s = .next t ∧
      t.dec.returned = .raised .malformedBit ∧ t.dec.cur = c' ∧
      t.dec.verdict = s.dec.verdict ∧ t.enc = s.enc ∧ t.rx = s.rx ∧ t.requests = s.requests)

/-- FRAME where a start bit is 1, a stop bit is 0 or the end marker is 0: it ends with `FramingViolation` at that bit, no
later one read (R114, R115, R116; the cause is read in `returned`, log entry 9). -/
def Obligations.FrameRejectsAWrongFramingBit : Prop :=
  ∀ (s : State) (p : Packet) (k : Nat) (c c' : Cursor) (want got : Bool), testedCell k = true →
    (packetBits p)[k]? = some want → Reads s.rx s.dec.cur ((packetBits p).take k) c →
    nextBit s.rx c = (.bit got, c') → got ≠ want →
    ∃ t : State, exec .frame s = .next t ∧ t.dec.returned = .raised .framingViolation ∧ t.dec.cur = c' ∧
      t.dec.verdict = s.dec.verdict ∧ t.enc = s.enc ∧ t.rx = s.rx ∧ t.requests = s.requests

/-- FRAME undoes WRITE: for every packet `P`, FRAME from the cursor (0, 0) on what WRITE produces from `P` leaves
`DPKT = P`, with the final cursor (160, 800) (R122, R175; success is read in `returned`, log entry 9). -/
def Obligations.FrameUndoesWrite : Prop :=
  ∀ s t u : State, s.enc.tx = [] → exec .write s = .next t → u.rx = t.enc.tx → u.dec.cur = ⟨0, 0⟩ →
    ∃ v : State, exec .frame u = .next v ∧ v.dec.returned = .done ∧ v.dec.dpkt = s.enc.epkt ∧
      v.dec.cur = ⟨160, 800⟩

/-! ### PacketValidator -/

/-- VALIDATE: the preamble first, then the checksum, then the three diagnostic bits; no byte of `DPKT` changes (R132, R133,
R134). That `DIAG` has no value after a failure is deduced from R214's last sentence (log entry 11); the outcome is read in
`returned` (log entry 9). -/
def Obligations.ValidateChecksPreambleThenChecksum : Prop :=
  ∀ (s : State) (p : Packet), s.dec.dpkt = p →
    let preamble : List Byte := [0x5A#8, 0xA5#8, 0x80#8, 0x7F#8, 0x40#8, 0xBF#8, 0x20#8, 0xDF#8, 0x10#8, 0xCC#8]
    let sum : Byte := p[10] ^^^ p[11] ^^^ p[12] ^^^ p[13] ^^^ p[14]
    (p.toList.take 10 ≠ preamble → exec .validate s =
      .next { s with dec := { s.dec with diag := none, returned := .raised .preambleMismatch } }) ∧
    (p.toList.take 10 = preamble → sum ≠ p[15] → exec .validate s =
      .next { s with dec := { s.dec with diag := none, returned := .raised .checksumMismatch } }) ∧
    (p.toList.take 10 = preamble → sum = p[15] → ∃ g : BitVec 3, exec .validate s =
      .next { s with dec := { s.dec with diag := some g, returned := .done } } ∧
      (g.getLsbD 0 = true ↔ p[13] ≠ 0xFF#8) ∧ (g.getLsbD 1 = true ↔ p[14] ≠ 0x23#8) ∧
      (g.getLsbD 2 = true ↔ (p[10].getLsbD 7 = true ∨ p[10].getLsbD 6 = true)))

/-- What the checksum sees (R137): among packets with the preamble of an accepted one, exactly those are accepted whose
changes in bytes 10 to 15 XOR to zero; so any change of one byte alone is detected (the outcome of VALIDATE is read in
`returned`, log entry 9). -/
def Obligations.ChecksumDetectsSingleByteChanges : Prop :=
  ∀ p q : Packet, ValidatesTo p .done → q.toList.take 10 = p.toList.take 10 →
    ((p[10] ^^^ q[10]) ^^^ (p[11] ^^^ q[11]) ^^^ (p[12] ^^^ q[12]) ^^^ (p[13] ^^^ q[13]) ^^^ (p[14] ^^^ q[14])
        ^^^ (p[15] ^^^ q[15]) = 0#8 ↔ ValidatesTo q .done) ∧
    (∀ (i : Fin 16) (b : Byte), 10 ≤ i.val → b ≠ p[i] → ValidatesTo (p.set i b) (.raised .checksumMismatch))

/-! ### FieldCodec -/

/-- UNPACK: the six booleans are bits 0 to 5 of byte 10, the two bytes are bytes 11 and 12; nothing else changes
(R151; the Command is read in `returned`, log entry 9). -/
def Obligations.UnpackSplitsTheStateByte : Prop :=
  ∀ (s : State) (p : Packet), s.dec.dpkt = p →
    ∃ c : Command, exec .unpack s = .next { s with dec := { s.dec with returned := .command c } } ∧
      c.fanOn = p[10].getLsbD 0 ∧ c.special = p[10].getLsbD 1 ∧ c.fanExhaust = p[10].getLsbD 2 ∧
      c.coverOpen = p[10].getLsbD 3 ∧ c.autoMode = p[10].getLsbD 4 ∧ c.warn = p[10].getLsbD 5 ∧
      c.fanSpeed = p[11] ∧ c.autoTemperature = p[12]

/-- UNPACK drops the reserved state bits, the fillers and the checksum: packets that agree in bits 5:0 of byte 10 and in
bytes 11 and 12 give the same Command (R152; read in `returned`, log entry 9). -/
def Obligations.UnpackDropsReservedBitsAndFillers : Prop :=
  ∀ s s' t t' : State, s.dec.dpkt[10] &&& 0x3F#8 = s'.dec.dpkt[10] &&& 0x3F#8 → s.dec.dpkt[11] = s'.dec.dpkt[11] →
    s.dec.dpkt[12] = s'.dec.dpkt[12] → exec .unpack s = .next t → exec .unpack s' = .next t' →
    t.dec.returned = t'.dec.returned

/-- PACK completes for every Command, with all sixteen bytes of `EPKT` as R155 gives them, and changes nothing else. -/
def Obligations.PackBuildsThePacket : Prop :=
  ∀ (c : Command) (s : State), ∃ p : Packet,
    exec (.pack c) s = .next { s with enc := { s.enc with epkt := p } } ∧
    p.toList.take 10 = [0x5A#8, 0xA5#8, 0x80#8, 0x7F#8, 0x40#8, 0xBF#8, 0x20#8, 0xDF#8, 0x10#8, 0xCC#8] ∧
    p[10].getLsbD 0 = c.fanOn ∧ p[10].getLsbD 1 = c.special ∧ p[10].getLsbD 2 = c.fanExhaust ∧
    p[10].getLsbD 3 = c.coverOpen ∧ p[10].getLsbD 4 = c.autoMode ∧ p[10].getLsbD 5 = c.warn ∧
    p[10].getLsbD 6 = false ∧ p[10].getLsbD 7 = false ∧ p[11] = c.fanSpeed ∧ p[12] = c.autoTemperature ∧
    p[13] = 0xFF#8 ∧ p[14] = 0x23#8 ∧ p[15] = p[10] ^^^ p[11] ^^^ p[12] ^^^ p[13] ^^^ p[14]

/-- PACK then UNPACK: the packet PACK makes of `c` validates with `DIAG = 000` and unpacks to `c`; and distinct Commands
give packets that differ in byte 10, 11 or 12 (R157, first and last sentences; outcomes read in `returned`, log entry 9). -/
def Obligations.PackedCommandsUnpackToThemselves : Prop :=
  (∀ (c : Command) (s t u : State), exec (.pack c) s = .next t → u.dec.dpkt = t.enc.epkt →
    (∃ v : State, exec .validate u = .next v ∧ v.dec.returned = .done ∧ v.dec.diag = some 0#3) ∧
    ∃ v : State, exec .unpack u = .next v ∧ v.dec.returned = .command c) ∧
  ∀ (c c' : Command) (s t t' : State), c ≠ c' → exec (.pack c) s = .next t → exec (.pack c') s = .next t' →
    t.enc.epkt[10] ≠ t'.enc.epkt[10] ∨ t.enc.epkt[11] ≠ t'.enc.epkt[11] ∨ t.enc.epkt[12] ≠ t'.enc.epkt[12]

/-- UNPACK then PACK: for an accepted packet, PACK of what UNPACK gives is the packet again exactly when `DIAG = 000`
(R157, third sentence up to its semicolon; outcomes read in `returned`, log entry 9). What follows the semicolon, where the
two packets differ, is left to DeviantPacketsDifferFromTheirRepack: for byte 15 it does not agree with R131, R132 and R155,
and the model follows those (log entry 23). -/
def Obligations.PackRestoresExactlyTheCleanPackets : Prop :=
  ∀ (s t u v : State) (g : BitVec 3) (c : Command), exec .validate s = .next t → t.dec.returned = .done →
    t.dec.diag = some g → exec .unpack t = .next u → u.dec.returned = .command c → exec (.pack c) u = .next v →
    (v.enc.epkt = s.dec.dpkt ↔ g = 0#3)

/-! ### PulseSequenceWriter -/

/-- WRITE appends 161 entries, whatever the bytes: per byte the start mark, eight data cells least significant first and
the stop space, then the end marker, 147200 microseconds in all; and changes nothing else (R171, R172).
R171's precondition is `TX_LEN = 0`; that a WRITE on a non-empty `TX` appends behind what is there is deduced (log
entry 13). -/
def Obligations.WriteEmitsTheByteFrames : Prop :=
  ∀ s : State, ∃ es : List Duration, exec .write s = .next { s with enc := { s.enc with tx := s.enc.tx ++ es } } ∧
    es.length = 161 ∧ (es.map fun d => d.toInt.natAbs).sum = 147200 ∧
    (∀ i : Fin 16, es[10 * i.val]?.map BitVec.toInt = some 800 ∧
      (∀ k < 8, es[10 * i.val + 1 + k]?.map BitVec.toInt =
        some (if s.enc.epkt[i].getLsbD k = true then -800 else 800)) ∧
      es[10 * i.val + 9]?.map BitVec.toInt = some (-1600)) ∧
    es[160]?.map BitVec.toInt = some (-6400)

/-! ### DECODE and ENCODE -/

/-- ENCODE is PACK, `TX_LEN <- 0`, WRITE; it completes for every Command, from every state, with `TX_LEN = 161`, 147200
microseconds in all and the carrier 38000; entries 0 to 99 and 130 to 149 are the same for every Command; nothing of DEC is
touched (R192). -/
def Obligations.EncodeIsPackThenWrite : Prop :=
  ∀ (c : Command) (s : State), ∃ a t : State, exec (.pack c) s = .next a ∧
    exec .write { a with enc := { a.enc with tx := [] } } = .next t ∧ exec (.encode c) s = .next t ∧
    t.enc.txLen = 161 ∧ t.carrier = 38000#32 ∧ t.dec = s.dec ∧ t.rx = s.rx ∧ t.requests = s.requests ∧
    (t.enc.tx.map fun d => d.toInt.natAbs).sum = 147200 ∧
    ∀ (c' : Command) (s' t' : State), exec (.encode c') s' = .next t' →
      t'.enc.tx.take 100 = t.enc.tx.take 100 ∧ (t'.enc.tx.drop 130).take 20 = (t.enc.tx.drop 130).take 20

/-- DECODE is RD_RESET, FRAME, VALIDATE, UNPACK on the presented sequence, with early exit on the first failure: the cause's
code and no value, or `OK` with the Command and `DIAG` (R191, R214; the steps' own outcomes are read in `returned`, log
entry 9). -/
def Obligations.DecodeIsItsFourSteps : Prop :=
  ∀ (rx : List Duration) (s : State), ∃ t a b : State, exec (.decode rx) s = .next t ∧
    exec .rdReset { s with rx := rx } = .next a ∧ exec .frame a = .next b ∧
    ((∃ cause, b.dec.returned = .raised cause ∧ t.dec.verdict = (cause.status, none, none)) ∨
     (b.dec.returned = .done ∧ ∃ v : State, exec .validate b = .next v ∧
       ((∃ cause, v.dec.returned = .raised cause ∧ t.dec.verdict = (cause.status, none, none)) ∨
        (v.dec.returned = .done ∧ ∃ (u : State) (c : Command) (g : BitVec 3), exec .unpack v = .next u ∧
          u.dec.returned = .command c ∧ v.dec.diag = some g ∧ t.dec.verdict = (.ok, some c, some g)))))

/-- DECODE completes for every sequence, from every state, with a definite verdict: a Command with its diagnostics, or one of
the five causes with neither, never both; `RX` is the sequence presented, and ENC and the requests are untouched (R210,
R214, R249; so is the model's own register of what was handed back, log entry 9). -/
def Obligations.DecodeEndsWithOneVerdict : Prop :=
  ∀ (rx : List Duration) (s : State), ∃ t : State, exec (.decode rx) s = .next t ∧
    t.rx = rx ∧ t.enc = s.enc ∧ t.requests = s.requests ∧ t.dec.returned = s.dec.returned ∧
    ((∃ (c : Command) (g : BitVec 3), t.dec.verdict = (.ok, some c, some g)) ∨
     ((t.dec.status = .endOfData ∨ t.dec.status = .malformedBit ∨ t.dec.status = .framingViolation ∨
       t.dec.status = .preambleMismatch ∨ t.dec.status = .checksumMismatch) ∧
      t.dec.cmdOut = none ∧ t.dec.diag = none))

/-- DECODE reports the first failing read in wire order: the reader's signal under its own name, or `FramingViolation` for a
wrong start, stop or end bit, whatever would come after (R218, R119). -/
def Obligations.DecodeReportsTheFirstFailingRead : Prop :=
  ∀ (rx : List Duration) (p : Packet) (k : Nat) (c c' : Cursor), k < 177 →
    Reads rx ⟨0, 0⟩ ((packetBits p).take k) c →
    (nextBit rx c = (.endOfData, c') → DecodesTo rx (.endOfData, none, none)) ∧
    (nextBit rx c = (.malformedBit, c') → DecodesTo rx (.malformedBit, none, none)) ∧
    (∀ want got, (packetBits p)[k]? = some want → nextBit rx c = (.bit got, c') → got ≠ want → testedCell k = true →
      DecodesTo rx (.framingViolation, none, none))

/-- Both operations are total, deterministic functions of their argument alone: from any two states whatever they complete,
and the results agree (R195). -/
def Obligations.ResultsDependOnTheArgumentAlone : Prop :=
  ∀ s s' : State,
    (∀ rx, ∃ t t' : State, exec (.decode rx) s = .next t ∧ exec (.decode rx) s' = .next t' ∧
      t.dec.verdict = t'.dec.verdict ∧ t.dec.cur = t'.dec.cur ∧
        (t.dec.status = .ok → t.dec.dpkt = t'.dec.dpkt)) ∧
    (∀ cmd, ∃ t t' : State, exec (.encode cmd) s = .next t ∧ exec (.encode cmd) s' = .next t' ∧
      t.enc = t'.enc ∧ t.carrier = t'.carrier)

/-- What stands after the last entry FRAME read is never examined: appending anything to a sequence changes no verdict but
`EndOfData` (R118). -/
def Obligations.AppendedEntriesAreNeverExamined : Prop :=
  ∀ (rx extra : List Duration) (s t : State), exec (.decode rx) s = .next t → t.dec.status ≠ .endOfData →
    ∃ t' : State, exec (.decode (rx ++ extra)) s = .next t' ∧ t'.dec.verdict = t.dec.verdict ∧ t'.dec.cur = t.dec.cur

/-- Round trip (R197): for every Command `c`, DECODE of ENCODE's sequence ends with `STATUS = OK`, `CMD_OUT = c`,
`DIAG = 000`. -/
def Obligations.DecodeOfEncodedCommandIsTheCommand : Prop :=
  ∀ (c : Command) (s t : State), exec (.encode c) s = .next t → DecodesTo t.enc.tx (.ok, some c, some 0#3)

/-- Checksum invariant (R198): in the packet `EPKT` left by any ENCODE, byte 15 is the XOR of bytes 10 to 14. -/
def Obligations.EncodeLeavesAConsistentChecksum : Prop :=
  ∀ (c : Command) (s : State), ∃ t : State, exec (.encode c) s = .next t ∧
    t.enc.epkt[15] = t.enc.epkt[10] ^^^ t.enc.epkt[11] ^^^ t.enc.epkt[12] ^^^ t.enc.epkt[13] ^^^ t.enc.epkt[14]

/-- Preamble corruption (R199): negating any one of the 80 data cells of bytes 0 to 9 of an encoded sequence ends in
`PreambleMismatch`; negating a start or a stop entry ends in `FramingViolation`, at that start bit and at the first stop
bit. -/
def Obligations.PreambleCorruptionIsRejected : Prop :=
  ∀ (c : Command) (s t : State) (d : Duration), exec (.encode c) s = .next t →
    (∀ i k : Nat, i < 10 → k < 8 → t.enc.tx[10 * i + 1 + k]? = some d →
      DecodesTo (t.enc.tx.set (10 * i + 1 + k) (-d)) (.preambleMismatch, none, none)) ∧
    (∀ i : Nat, i < 10 → t.enc.tx[10 * i]? = some d →
      DecodesToAt (t.enc.tx.set (10 * i) (-d)) (.framingViolation, none, none) ⟨10 * i, 800⟩) ∧
    (∀ i : Nat, i < 10 → t.enc.tx[10 * i + 9]? = some d →
      DecodesToAt (t.enc.tx.set (10 * i + 9) (-d)) (.framingViolation, none, none) ⟨10 * i + 9, 800⟩)

/-- Checksum tampering (R200): WRITE of a valid packet with byte 15 replaced by any other value, then DECODE, ends in
`ChecksumMismatch`. -/
def Obligations.AlteredChecksumByteIsRejected : Prop :=
  ∀ (p : Packet) (b : Byte) (s t : State),
    p.toList.take 10 = [0x5A#8, 0xA5#8, 0x80#8, 0x7F#8, 0x40#8, 0xBF#8, 0x20#8, 0xDF#8, 0x10#8, 0xCC#8] →
    p[10] ^^^ p[11] ^^^ p[12] ^^^ p[13] ^^^ p[14] = p[15] → b ≠ p[15] → s.enc.epkt = p.set 15 b → s.enc.tx = [] →
    exec .write s = .next t → DecodesTo t.enc.tx (.checksumMismatch, none, none)

/-- Truncation (R201): every proper prefix of an encoded sequence, from nothing to all but the end marker, ends in
`EndOfData`. -/
def Obligations.TruncationIsEndOfData : Prop :=
  ∀ (c : Command) (s t : State) (m : Nat), exec (.encode c) s = .next t → m ≤ 160 →
    DecodesTo (t.enc.tx.take m) (.endOfData, none, none)

/-- Framing violation (R202): a stop entry replaced by `+1600`, or by `+800, -800`, ends in `FramingViolation` at that byte,
with the cursor just behind the first stop cell. -/
def Obligations.WrongPolarityStopBitIsRejected : Prop :=
  ∀ (c : Command) (s t : State) (i : Nat), exec (.encode c) s = .next t → i < 16 →
    DecodesToAt (t.enc.tx.set (10 * i + 9) 1600#32) (.framingViolation, none, none) ⟨10 * i + 9, 800⟩ ∧
    DecodesToAt (t.enc.tx.take (10 * i + 9) ++ [800#32, BitVec.ofInt 32 (-800)] ++ t.enc.tx.drop (10 * i + 10))
      (.framingViolation, none, none) ⟨10 * i + 9, 800⟩

/-! ### The wire and the result registers -/

/-- WIRE.BIT_CELL.MARK and WIRE.BIT_CELL.SPACE: one entry of +800 or -800 arrives at the end of `RX`, and is read back as the
bit it stands for (R61, R62). That a wire row is an arrival at `RX` is the model's choice (log entry 7); the bit is read in
`returned` (log entry 9). -/
def Obligations.BitCellsArriveAsTheirBits : Prop :=
  ∀ s : State,
    (∃ d : Duration, exec .wireBitCellMark s = .next { s with rx := s.rx ++ [d] } ∧ d.toInt = 800) ∧
    (∃ d : Duration, exec .wireBitCellSpace s = .next { s with rx := s.rx ++ [d] } ∧ d.toInt = -800) ∧
    ∀ t : State, s.dec.cur = ⟨s.rx.length, 0⟩ →
      (exec .wireBitCellMark s = .next t → ∃ u : State, exec .nextBit t = .next u ∧
        u.dec.returned = .reader (.bit false)) ∧
      (exec .wireBitCellSpace s = .next t → ∃ u : State, exec .nextBit t = .next u ∧
        u.dec.returned = .reader (.bit true))

/-- WIRE.BYTE_FRAME, WIRE.STATE_BYTE and WIRE.END_MARKER: the byte arrives as a start mark, eight cells least significant
first and a stop space of 1600; the state byte likewise, in the wire order f, s, x, c, a, w and the two reserved bits; the
end marker as one space of 6400 (R64, R65, R67). That they arrive at `RX` is the model's choice (log entry 7). -/
def Obligations.FramesArriveAsWritten : Prop :=
  ∀ s : State,
    (∀ b : Byte, ∃ es : List Duration, exec (.wireByteFrame b) s = .next { s with rx := s.rx ++ es } ∧
      es.map BitVec.toInt = 800 :: ((List.range 8).map fun k => if b.getLsbD k = true then -800 else 800) ++ [-1600]) ∧
    (∀ sb : StateByte, ∃ es : List Duration, exec (.wireStateByte sb) s = .next { s with rx := s.rx ++ es } ∧
      es.map BitVec.toInt = 800 :: ([sb.fanOn, sb.special, sb.fanExhaust, sb.coverOpen, sb.autoMode, sb.warn,
        sb.reserved.getLsbD 0, sb.reserved.getLsbD 1].map fun bit => if bit = true then -800 else 800) ++ [-1600]) ∧
    ∃ d : Duration, exec .wireEndMarker s = .next { s with rx := s.rx ++ [d] } ∧ d.toInt = -6400

/-- WIRE.PACKET: sixteen byte frames, 160 entries, arrive at the end of `RX`; with the end marker behind them they are
exactly what WRITE emits for the packet, and FRAME reads the packet back from them (R65, R66, R122). That they arrive at
`RX` is the model's choice (log entry 7); that WRITE appends where `TX` is not empty is deduced (log entry 13); success is
read in `returned` (log entry 9). -/
def Obligations.PacketArrivesAsWriteEmitsIt : Prop :=
  ∀ (p : Packet) (s : State), ∃ es : List Duration,
    exec (.wirePacket p) s = .next { s with rx := s.rx ++ es } ∧ es.length = 160 ∧
    (∀ u w : State, u.enc.epkt = p → exec .write u = .next w → w.enc.tx = u.enc.tx ++ es ++ [BitVec.ofInt 32 (-6400)]) ∧
    (∀ a b : State, s.rx = [] → s.dec.cur = ⟨0, 0⟩ → exec (.wirePacket p) s = .next a →
      exec .wireEndMarker a = .next b →
      ∃ f : State, exec .frame b = .next f ∧ f.dec.returned = .done ∧ f.dec.dpkt = p)

/-- STATUS: the host reads the 3-bit code of R17's list, 7 never, and the read changes nothing (R17, R49). That the row is a
read, and where the value read is held, are the model's choices (log entries 8 and 9). -/
def Obligations.StatusReadsTheResultCode : Prop :=
  ∀ s : State, ∃ v : BitVec 3, exec .status s = .next { s with dec := { s.dec with returned := .code v } } ∧
    v.toNat ≠ 7 ∧ (v.toNat = 0 ↔ s.dec.status = .idle) ∧ (v.toNat = 1 ↔ s.dec.status = .ok) ∧
    (v.toNat = 2 ↔ s.dec.status = .endOfData) ∧ (v.toNat = 3 ↔ s.dec.status = .malformedBit) ∧
    (v.toNat = 4 ↔ s.dec.status = .framingViolation) ∧ (v.toNat = 5 ↔ s.dec.status = .preambleMismatch) ∧
    (v.toNat = 6 ↔ s.dec.status = .checksumMismatch)

/-- DIAG: the read completes from every state, changes no register, and gives the register's value while `STATUS = OK` and
it has one; otherwise the value read is left open (R18, R248; log entries 6, 8 and 9). -/
def Obligations.DiagReadsTheDiagnosticBits : Prop :=
  ∀ s : State, ∃ (v : BitVec 3) (t : State), exec .diag s = .next t ∧
    t.dec = { s.dec with returned := .code v } ∧ t.enc = s.enc ∧ t.rx = s.rx ∧ t.requests = s.requests ∧
    ∀ g, s.dec.status = .ok → s.dec.diag = some g → v = g

/-! ### Where a deviant packet and its re-pack differ -/

/-- UNPACK then PACK of an accepted packet whose `DIAG` is not 000: the packet made differs from the accepted one in the
reserved bits of byte 10 or in a filler byte, and in no other of the bytes 0 to 14; byte 15 is the accepted one's exactly
when the deviations (the reserved bits, byte 13 against 0xFF, byte 14 against 0x23) XOR to zero. R157 says that byte 15
differs always; by R131, R132 and R155 it does not then, and following these three is the model's choice (log entry 23).
Outcomes are read in `returned` (log entry 9). -/
def Obligations.DeviantPacketsDifferFromTheirRepack : Prop :=
  ∀ (s t u v : State) (p q : Packet) (g : BitVec 3) (c : Command), s.dec.dpkt = p → exec .validate s = .next t →
    t.dec.returned = .done → t.dec.diag = some g → g ≠ 0#3 → exec .unpack t = .next u → u.dec.returned = .command c →
    exec (.pack c) u = .next v → v.enc.epkt = q →
    (q[10] &&& 0xC0#8 ≠ p[10] &&& 0xC0#8 ∨ q[13] ≠ p[13] ∨ q[14] ≠ p[14]) ∧
    q.toList.take 10 = p.toList.take 10 ∧ q[10] &&& 0x3F#8 = p[10] &&& 0x3F#8 ∧ q[11] = p[11] ∧ q[12] = p[12] ∧
    (q[15] = p[15] ↔ (p[10] &&& 0xC0#8) ^^^ (p[13] ^^^ 0xFF#8) ^^^ (p[14] ^^^ 0x23#8) = 0#8)
end

