-- ==== Sys2Proof/Laws/State.lean ====
section
/-! SUPPORT. One lemma per field per update of the state record, each true by unfolding the update. -/

namespace Sys2Proof
namespace Machine

@[simp] theorem State.setDec_dec (s : State) (d : Dec) : (s.setDec d).dec = d := rfl
@[simp] theorem State.setDec_enc (s : State) (d : Dec) : (s.setDec d).enc = s.enc := rfl
@[simp] theorem State.setDec_rx (s : State) (d : Dec) : (s.setDec d).rx = s.rx := rfl
@[simp] theorem State.setDec_requests (s : State) (d : Dec) : (s.setDec d).requests = s.requests := rfl
@[simp] theorem State.setDec_freeCount (s : State) (d : Dec) : (s.setDec d).freeCount = s.freeCount := rfl

@[simp] theorem State.setEnc_dec (s : State) (e : Enc) : (s.setEnc e).dec = s.dec := rfl
@[simp] theorem State.setEnc_enc (s : State) (e : Enc) : (s.setEnc e).enc = e := rfl
@[simp] theorem State.setEnc_rx (s : State) (e : Enc) : (s.setEnc e).rx = s.rx := rfl
@[simp] theorem State.setEnc_requests (s : State) (e : Enc) : (s.setEnc e).requests = s.requests := rfl
@[simp] theorem State.setEnc_freeCount (s : State) (e : Enc) : (s.setEnc e).freeCount = s.freeCount := rfl

@[simp] theorem State.present_dec (s : State) (rx : List Duration) : (s.present rx).dec = s.dec := rfl
@[simp] theorem State.present_enc (s : State) (rx : List Duration) : (s.present rx).enc = s.enc := rfl
@[simp] theorem State.present_rx (s : State) (rx : List Duration) : (s.present rx).rx = rx := rfl
@[simp] theorem State.present_requests (s : State) (rx : List Duration) : (s.present rx).requests = s.requests := rfl
@[simp] theorem State.present_freeCount (s : State) (rx : List Duration) : (s.present rx).freeCount = s.freeCount := rfl

@[simp] theorem State.deliver_dec (s : State) (entries : List Duration) : (s.deliver entries).dec = s.dec := rfl
@[simp] theorem State.deliver_enc (s : State) (entries : List Duration) : (s.deliver entries).enc = s.enc := rfl
@[simp] theorem State.deliver_rx (s : State) (entries : List Duration) : (s.deliver entries).rx = s.rx ++ entries := rfl
@[simp] theorem State.deliver_requests (s : State) (entries : List Duration) : (s.deliver entries).requests = s.requests := rfl
@[simp] theorem State.deliver_freeCount (s : State) (entries : List Duration) : (s.deliver entries).freeCount = s.freeCount := rfl

@[simp] theorem State.drawFree_dec (s : State) : (s.drawFree).dec = s.dec := rfl
@[simp] theorem State.drawFree_enc (s : State) : (s.drawFree).enc = s.enc := rfl
@[simp] theorem State.drawFree_rx (s : State) : (s.drawFree).rx = s.rx := rfl
@[simp] theorem State.drawFree_requests (s : State) : (s.drawFree).requests = s.requests := rfl
@[simp] theorem State.drawFree_freeCount (s : State) : (s.drawFree).freeCount = s.freeCount + 1 := rfl

@[simp] theorem State.hostReset_dec (s : State) : (s.hostReset).dec = Dec.reset := rfl
@[simp] theorem State.hostReset_enc (s : State) : (s.hostReset).enc = Enc.reset := rfl
@[simp] theorem State.hostReset_rx (s : State) : (s.hostReset).rx = s.rx := rfl
@[simp] theorem State.hostReset_requests (s : State) : (s.hostReset).requests = s.requests := rfl
@[simp] theorem State.hostReset_freeCount (s : State) : (s.hostReset).freeCount = s.freeCount := rfl

@[simp] theorem Dec.setCur_cur (d : Dec) (c : Cursor) : (d.setCur c).cur = c := rfl
@[simp] theorem Dec.setCur_slot (d : Dec) (c : Cursor) : (d.setCur c).slot = d.slot := rfl
@[simp] theorem Dec.setCur_bitn (d : Dec) (c : Cursor) : (d.setCur c).bitn = d.bitn := rfl
@[simp] theorem Dec.setCur_acc (d : Dec) (c : Cursor) : (d.setCur c).acc = d.acc := rfl
@[simp] theorem Dec.setCur_dpkt (d : Dec) (c : Cursor) : (d.setCur c).dpkt = d.dpkt := rfl
@[simp] theorem Dec.setCur_status (d : Dec) (c : Cursor) : (d.setCur c).status = d.status := rfl
@[simp] theorem Dec.setCur_cmdOut (d : Dec) (c : Cursor) : (d.setCur c).cmdOut = d.cmdOut := rfl
@[simp] theorem Dec.setCur_diag (d : Dec) (c : Cursor) : (d.setCur c).diag = d.diag := rfl
@[simp] theorem Dec.setCur_returned (d : Dec) (c : Cursor) : (d.setCur c).returned = d.returned := rfl

@[simp] theorem Dec.setSlot_cur (d : Dec) (n : Fin 17) : (d.setSlot n).cur = d.cur := rfl
@[simp] theorem Dec.setSlot_slot (d : Dec) (n : Fin 17) : (d.setSlot n).slot = n := rfl
@[simp] theorem Dec.setSlot_bitn (d : Dec) (n : Fin 17) : (d.setSlot n).bitn = d.bitn := rfl
@[simp] theorem Dec.setSlot_acc (d : Dec) (n : Fin 17) : (d.setSlot n).acc = d.acc := rfl
@[simp] theorem Dec.setSlot_dpkt (d : Dec) (n : Fin 17) : (d.setSlot n).dpkt = d.dpkt := rfl
@[simp] theorem Dec.setSlot_status (d : Dec) (n : Fin 17) : (d.setSlot n).status = d.status := rfl
@[simp] theorem Dec.setSlot_cmdOut (d : Dec) (n : Fin 17) : (d.setSlot n).cmdOut = d.cmdOut := rfl
@[simp] theorem Dec.setSlot_diag (d : Dec) (n : Fin 17) : (d.setSlot n).diag = d.diag := rfl
@[simp] theorem Dec.setSlot_returned (d : Dec) (n : Fin 17) : (d.setSlot n).returned = d.returned := rfl

@[simp] theorem Dec.setBitn_cur (d : Dec) (n : Fin 8) : (d.setBitn n).cur = d.cur := rfl
@[simp] theorem Dec.setBitn_slot (d : Dec) (n : Fin 8) : (d.setBitn n).slot = d.slot := rfl
@[simp] theorem Dec.setBitn_bitn (d : Dec) (n : Fin 8) : (d.setBitn n).bitn = n := rfl
@[simp] theorem Dec.setBitn_acc (d : Dec) (n : Fin 8) : (d.setBitn n).acc = d.acc := rfl
@[simp] theorem Dec.setBitn_dpkt (d : Dec) (n : Fin 8) : (d.setBitn n).dpkt = d.dpkt := rfl
@[simp] theorem Dec.setBitn_status (d : Dec) (n : Fin 8) : (d.setBitn n).status = d.status := rfl
@[simp] theorem Dec.setBitn_cmdOut (d : Dec) (n : Fin 8) : (d.setBitn n).cmdOut = d.cmdOut := rfl
@[simp] theorem Dec.setBitn_diag (d : Dec) (n : Fin 8) : (d.setBitn n).diag = d.diag := rfl
@[simp] theorem Dec.setBitn_returned (d : Dec) (n : Fin 8) : (d.setBitn n).returned = d.returned := rfl

@[simp] theorem Dec.setAcc_cur (d : Dec) (b : Byte) : (d.setAcc b).cur = d.cur := rfl
@[simp] theorem Dec.setAcc_slot (d : Dec) (b : Byte) : (d.setAcc b).slot = d.slot := rfl
@[simp] theorem Dec.setAcc_bitn (d : Dec) (b : Byte) : (d.setAcc b).bitn = d.bitn := rfl
@[simp] theorem Dec.setAcc_acc (d : Dec) (b : Byte) : (d.setAcc b).acc = b := rfl
@[simp] theorem Dec.setAcc_dpkt (d : Dec) (b : Byte) : (d.setAcc b).dpkt = d.dpkt := rfl
@[simp] theorem Dec.setAcc_status (d : Dec) (b : Byte) : (d.setAcc b).status = d.status := rfl
@[simp] theorem Dec.setAcc_cmdOut (d : Dec) (b : Byte) : (d.setAcc b).cmdOut = d.cmdOut := rfl
@[simp] theorem Dec.setAcc_diag (d : Dec) (b : Byte) : (d.setAcc b).diag = d.diag := rfl
@[simp] theorem Dec.setAcc_returned (d : Dec) (b : Byte) : (d.setAcc b).returned = d.returned := rfl

@[simp] theorem Dec.setByte_cur (d : Dec) (i : Fin 16) (b : Byte) : (d.setByte i b).cur = d.cur := rfl
@[simp] theorem Dec.setByte_slot (d : Dec) (i : Fin 16) (b : Byte) : (d.setByte i b).slot = d.slot := rfl
@[simp] theorem Dec.setByte_bitn (d : Dec) (i : Fin 16) (b : Byte) : (d.setByte i b).bitn = d.bitn := rfl
@[simp] theorem Dec.setByte_acc (d : Dec) (i : Fin 16) (b : Byte) : (d.setByte i b).acc = d.acc := rfl
@[simp] theorem Dec.setByte_dpkt (d : Dec) (i : Fin 16) (b : Byte) : (d.setByte i b).dpkt = d.dpkt.set i b := rfl
@[simp] theorem Dec.setByte_status (d : Dec) (i : Fin 16) (b : Byte) : (d.setByte i b).status = d.status := rfl
@[simp] theorem Dec.setByte_cmdOut (d : Dec) (i : Fin 16) (b : Byte) : (d.setByte i b).cmdOut = d.cmdOut := rfl
@[simp] theorem Dec.setByte_diag (d : Dec) (i : Fin 16) (b : Byte) : (d.setByte i b).diag = d.diag := rfl
@[simp] theorem Dec.setByte_returned (d : Dec) (i : Fin 16) (b : Byte) : (d.setByte i b).returned = d.returned := rfl

@[simp] theorem Dec.setDpkt_cur (d : Dec) (p : Packet) : (d.setDpkt p).cur = d.cur := rfl
@[simp] theorem Dec.setDpkt_slot (d : Dec) (p : Packet) : (d.setDpkt p).slot = d.slot := rfl
@[simp] theorem Dec.setDpkt_bitn (d : Dec) (p : Packet) : (d.setDpkt p).bitn = d.bitn := rfl
@[simp] theorem Dec.setDpkt_acc (d : Dec) (p : Packet) : (d.setDpkt p).acc = d.acc := rfl
@[simp] theorem Dec.setDpkt_dpkt (d : Dec) (p : Packet) : (d.setDpkt p).dpkt = p := rfl
@[simp] theorem Dec.setDpkt_status (d : Dec) (p : Packet) : (d.setDpkt p).status = d.status := rfl
@[simp] theorem Dec.setDpkt_cmdOut (d : Dec) (p : Packet) : (d.setDpkt p).cmdOut = d.cmdOut := rfl
@[simp] theorem Dec.setDpkt_diag (d : Dec) (p : Packet) : (d.setDpkt p).diag = d.diag := rfl
@[simp] theorem Dec.setDpkt_returned (d : Dec) (p : Packet) : (d.setDpkt p).returned = d.returned := rfl

@[simp] theorem Dec.setDiag_cur (d : Dec) (g : Option (BitVec 3)) : (d.setDiag g).cur = d.cur := rfl
@[simp] theorem Dec.setDiag_slot (d : Dec) (g : Option (BitVec 3)) : (d.setDiag g).slot = d.slot := rfl
@[simp] theorem Dec.setDiag_bitn (d : Dec) (g : Option (BitVec 3)) : (d.setDiag g).bitn = d.bitn := rfl
@[simp] theorem Dec.setDiag_acc (d : Dec) (g : Option (BitVec 3)) : (d.setDiag g).acc = d.acc := rfl
@[simp] theorem Dec.setDiag_dpkt (d : Dec) (g : Option (BitVec 3)) : (d.setDiag g).dpkt = d.dpkt := rfl
@[simp] theorem Dec.setDiag_status (d : Dec) (g : Option (BitVec 3)) : (d.setDiag g).status = d.status := rfl
@[simp] theorem Dec.setDiag_cmdOut (d : Dec) (g : Option (BitVec 3)) : (d.setDiag g).cmdOut = d.cmdOut := rfl
@[simp] theorem Dec.setDiag_diag (d : Dec) (g : Option (BitVec 3)) : (d.setDiag g).diag = g := rfl
@[simp] theorem Dec.setDiag_returned (d : Dec) (g : Option (BitVec 3)) : (d.setDiag g).returned = d.returned := rfl

@[simp] theorem Dec.handBack_cur (d : Dec) (r : Returned) : (d.handBack r).cur = d.cur := rfl
@[simp] theorem Dec.handBack_slot (d : Dec) (r : Returned) : (d.handBack r).slot = d.slot := rfl
@[simp] theorem Dec.handBack_bitn (d : Dec) (r : Returned) : (d.handBack r).bitn = d.bitn := rfl
@[simp] theorem Dec.handBack_acc (d : Dec) (r : Returned) : (d.handBack r).acc = d.acc := rfl
@[simp] theorem Dec.handBack_dpkt (d : Dec) (r : Returned) : (d.handBack r).dpkt = d.dpkt := rfl
@[simp] theorem Dec.handBack_status (d : Dec) (r : Returned) : (d.handBack r).status = d.status := rfl
@[simp] theorem Dec.handBack_cmdOut (d : Dec) (r : Returned) : (d.handBack r).cmdOut = d.cmdOut := rfl
@[simp] theorem Dec.handBack_diag (d : Dec) (r : Returned) : (d.handBack r).diag = d.diag := rfl
@[simp] theorem Dec.handBack_returned (d : Dec) (r : Returned) : (d.handBack r).returned = r := rfl

@[simp] theorem Dec.handFailure_cur (d : Dec) (c : Cause) : (d.handFailure c).cur = d.cur := rfl
@[simp] theorem Dec.handFailure_slot (d : Dec) (c : Cause) : (d.handFailure c).slot = d.slot := rfl
@[simp] theorem Dec.handFailure_bitn (d : Dec) (c : Cause) : (d.handFailure c).bitn = d.bitn := rfl
@[simp] theorem Dec.handFailure_acc (d : Dec) (c : Cause) : (d.handFailure c).acc = d.acc := rfl
@[simp] theorem Dec.handFailure_dpkt (d : Dec) (c : Cause) : (d.handFailure c).dpkt = d.dpkt := rfl
@[simp] theorem Dec.handFailure_status (d : Dec) (c : Cause) : (d.handFailure c).status = d.status := rfl
@[simp] theorem Dec.handFailure_cmdOut (d : Dec) (c : Cause) : (d.handFailure c).cmdOut = d.cmdOut := rfl
@[simp] theorem Dec.handFailure_diag (d : Dec) (c : Cause) : (d.handFailure c).diag = d.diag := rfl
@[simp] theorem Dec.handFailure_returned (d : Dec) (c : Cause) : (d.handFailure c).returned = .raised c := rfl

@[simp] theorem Dec.takeFailure_cur (d : Dec) (c : Cause) : (d.takeFailure c).cur = d.cur := rfl
@[simp] theorem Dec.takeFailure_slot (d : Dec) (c : Cause) : (d.takeFailure c).slot = d.slot := rfl
@[simp] theorem Dec.takeFailure_bitn (d : Dec) (c : Cause) : (d.takeFailure c).bitn = d.bitn := rfl
@[simp] theorem Dec.takeFailure_acc (d : Dec) (c : Cause) : (d.takeFailure c).acc = d.acc := rfl
@[simp] theorem Dec.takeFailure_dpkt (d : Dec) (c : Cause) : (d.takeFailure c).dpkt = d.dpkt := rfl
@[simp] theorem Dec.takeFailure_status (d : Dec) (c : Cause) : (d.takeFailure c).status = c.status := rfl
@[simp] theorem Dec.takeFailure_cmdOut (d : Dec) (c : Cause) : (d.takeFailure c).cmdOut = none := rfl
@[simp] theorem Dec.takeFailure_diag (d : Dec) (c : Cause) : (d.takeFailure c).diag = none := rfl
@[simp] theorem Dec.takeFailure_returned (d : Dec) (c : Cause) : (d.takeFailure c).returned = d.returned := rfl

@[simp] theorem Dec.accept_cur (d : Dec) (g : BitVec 3) (c : Command) : (d.accept g c).cur = d.cur := rfl
@[simp] theorem Dec.accept_slot (d : Dec) (g : BitVec 3) (c : Command) : (d.accept g c).slot = d.slot := rfl
@[simp] theorem Dec.accept_bitn (d : Dec) (g : BitVec 3) (c : Command) : (d.accept g c).bitn = d.bitn := rfl
@[simp] theorem Dec.accept_acc (d : Dec) (g : BitVec 3) (c : Command) : (d.accept g c).acc = d.acc := rfl
@[simp] theorem Dec.accept_dpkt (d : Dec) (g : BitVec 3) (c : Command) : (d.accept g c).dpkt = d.dpkt := rfl
@[simp] theorem Dec.accept_status (d : Dec) (g : BitVec 3) (c : Command) : (d.accept g c).status = .ok := rfl
@[simp] theorem Dec.accept_cmdOut (d : Dec) (g : BitVec 3) (c : Command) : (d.accept g c).cmdOut = some c := rfl
@[simp] theorem Dec.accept_diag (d : Dec) (g : BitVec 3) (c : Command) : (d.accept g c).diag = some g := rfl
@[simp] theorem Dec.accept_returned (d : Dec) (g : BitVec 3) (c : Command) : (d.accept g c).returned = d.returned := rfl

@[simp] theorem Dec.forgetFramer_cur (d : Dec) (n : Nat) : (d.forgetFramer n).cur = d.cur := rfl
@[simp] theorem Dec.forgetFramer_slot (d : Dec) (n : Nat) : (d.forgetFramer n).slot = Config.freeSlot n := rfl
@[simp] theorem Dec.forgetFramer_bitn (d : Dec) (n : Nat) : (d.forgetFramer n).bitn = Config.freeBitn n := rfl
@[simp] theorem Dec.forgetFramer_acc (d : Dec) (n : Nat) : (d.forgetFramer n).acc = Config.freeAcc n := rfl
@[simp] theorem Dec.forgetFramer_dpkt (d : Dec) (n : Nat) : (d.forgetFramer n).dpkt = d.dpkt := rfl
@[simp] theorem Dec.forgetFramer_status (d : Dec) (n : Nat) : (d.forgetFramer n).status = d.status := rfl
@[simp] theorem Dec.forgetFramer_cmdOut (d : Dec) (n : Nat) : (d.forgetFramer n).cmdOut = d.cmdOut := rfl
@[simp] theorem Dec.forgetFramer_diag (d : Dec) (n : Nat) : (d.forgetFramer n).diag = d.diag := rfl
@[simp] theorem Dec.forgetFramer_returned (d : Dec) (n : Nat) : (d.forgetFramer n).returned = d.returned := rfl

@[simp] theorem Enc.memWrite_epkt (e : Enc) (v : Duration) : (e.memWrite v).epkt = e.epkt := rfl
@[simp] theorem Enc.memWrite_tx (e : Enc) (v : Duration) : (e.memWrite v).tx = e.tx ++ [v] := rfl

@[simp] theorem Enc.pack_epkt (e : Enc) (c : Command) : (e.pack c).epkt = packPacket c := rfl
@[simp] theorem Enc.pack_tx (e : Enc) (c : Command) : (e.pack c).tx = e.tx := rfl

@[simp] theorem Enc.clearTx_epkt (e : Enc) : (e.clearTx).epkt = e.epkt := rfl
@[simp] theorem Enc.clearTx_tx (e : Enc) : (e.clearTx).tx = [] := rfl

end Machine
end Sys2Proof
end

