-- ==== Sys2Proof/Laws/Reader.lean ====
section
/-! SUPPORT. The reader: the three-way test by its limits, NEXT_BIT by one turn of its loop, and everything one NEXT_BIT
can do to the cursor. -/

namespace Sys2Proof
namespace Machine

theorem classify_eq_bit {r : Int} : classify r = .bit ↔ 534 ≤ r := by
  simp only [classify, Config.thirdsDen, Config.hiNum, Config.loNum, Config.bitPeriod]
  push_cast
  split_ifs <;> simp <;> omega

theorem classify_eq_malformed {r : Int} : classify r = .malformed ↔ 267 ≤ r ∧ r ≤ 533 := by
  simp only [classify, Config.thirdsDen, Config.hiNum, Config.loNum, Config.bitPeriod]
  push_cast
  split_ifs <;> simp <;> omega

theorem classify_eq_exhausted {r : Int} : classify r = .exhausted ↔ r ≤ 266 := by
  simp only [classify, Config.thirdsDen, Config.hiNum, Config.loNum, Config.bitPeriod]
  push_cast
  split_ifs <;> simp <;> omega

theorem memRead_eq_none {rx : List Duration} {i : Nat} : memRead rx i = none ↔ rx.length ≤ i := by
  simp [memRead]

theorem memRead_lt {rx : List Duration} {i : Nat} {d : Duration} (h : memRead rx i = some d) : i < rx.length := by
  obtain ⟨hi, -⟩ := List.getElem?_eq_some_iff.mp h
  exact hi

/-- More turns than entries left change nothing: the loop ends by itself (R104). -/
theorem nextBitTurns_enough (rx : List Duration) :
    ∀ (n m : Nat) (c : Cursor), rx.length - c.idx < n → rx.length - c.idx < m →
      nextBitTurns rx n c = nextBitTurns rx m c
  | 0, _, _, h, _ => absurd h (Nat.not_lt_zero _)
  | _ + 1, 0, _, _, h => absurd h (Nat.not_lt_zero _)
  | n + 1, m + 1, c, hn, hm => by
    simp only [nextBitTurns]
    split
    · rfl
    · rename_i d hd
      have hlt := memRead_lt hd
      split
      · rfl
      · rfl
      · exact nextBitTurns_enough rx n m _ (by simp; omega) (by simp; omega)

/-- One turn of NEXT_BIT's loop, as R93's pseudocode has it. -/
theorem nextBit_eq (rx : List Duration) (c : Cursor) :
    nextBit rx c =
      match memRead rx c.idx with
      | none => (.endOfData, c)
      | some d =>
        match classify (remainingLength d c.used) with
        | .bit => (.bit (bitOfEntry d), ⟨c.idx, c.used + 800⟩)
        | .malformed => (.malformedBit, c)
        | .exhausted => nextBit rx ⟨c.idx + 1, 0⟩ := by
  conv => lhs; rw [nextBit, nextBitTurns]
  rcases hd : memRead rx c.idx with _ | d
  · rfl
  · have hlt := memRead_lt hd
    rcases hc : classify (remainingLength d c.used) with _ | _ | _ <;> simp only [hc]
    · rfl
    · exact nextBitTurns_enough rx _ _ ⟨c.idx + 1, 0⟩ (show rx.length - (c.idx + 1) < _ by omega)
        (show rx.length - (c.idx + 1) < _ by simp)

theorem nextBit_of_none {rx : List Duration} {c : Cursor} (h : rx.length ≤ c.idx) :
    nextBit rx c = (.endOfData, c) := by
  rw [nextBit_eq, memRead_eq_none.mpr h]

theorem nextBit_of_bit {rx : List Duration} {c : Cursor} {d : Duration} (hd : memRead rx c.idx = some d)
    (hr : 534 ≤ remainingLength d c.used) :
    nextBit rx c = (.bit (bitOfEntry d), ⟨c.idx, c.used + 800⟩) := by
  rw [nextBit_eq, hd]; simp only [classify_eq_bit.mpr hr]

theorem nextBit_of_malformed {rx : List Duration} {c : Cursor} {d : Duration} (hd : memRead rx c.idx = some d)
    (hr : 267 ≤ remainingLength d c.used) (hr' : remainingLength d c.used ≤ 533) :
    nextBit rx c = (.malformedBit, c) := by
  rw [nextBit_eq, hd]; simp only [classify_eq_malformed.mpr ⟨hr, hr'⟩]

theorem nextBit_of_exhausted {rx : List Duration} {c : Cursor} {d : Duration} (hd : memRead rx c.idx = some d)
    (hr : remainingLength d c.used ≤ 266) :
    nextBit rx c = nextBit rx ⟨c.idx + 1, 0⟩ := by
  rw [nextBit_eq, hd]; simp only [classify_eq_exhausted.mpr hr]

/-- Induction along NEXT_BIT's loop: what holds of the three returning turns, and is carried back over a turn that
advances, holds of every cursor. -/
theorem nextBit_induct {rx : List Duration} {P : Cursor → Prop}
    (hEnd : ∀ c : Cursor, rx.length ≤ c.idx → P c)
    (hBit : ∀ (c : Cursor) (d : Duration), memRead rx c.idx = some d → 534 ≤ remainingLength d c.used → P c)
    (hMal : ∀ (c : Cursor) (d : Duration), memRead rx c.idx = some d → 267 ≤ remainingLength d c.used →
      remainingLength d c.used ≤ 533 → P c)
    (hExh : ∀ (c : Cursor) (d : Duration), memRead rx c.idx = some d → remainingLength d c.used ≤ 266 →
      P ⟨c.idx + 1, 0⟩ → P c) (c : Cursor) : P c := by
  suffices h : ∀ (n : Nat) (c : Cursor), rx.length - c.idx ≤ n → P c from h _ c le_rfl
  intro n
  induction n with
  | zero => intro c hc; exact hEnd c (by omega)
  | succ n ih =>
    intro c hc
    rcases hd : memRead rx c.idx with _ | d
    · exact hEnd c (memRead_eq_none.mp hd)
    · have hlt := memRead_lt hd
      by_cases h₁ : 534 ≤ remainingLength d c.used
      · exact hBit c d hd h₁
      · by_cases h₂ : 267 ≤ remainingLength d c.used
        · exact hMal c d hd h₂ (by omega)
        · exact hExh c d hd (by omega) (ih _ (by simp; omega))

/-- Everything one NEXT_BIT can do: from the turn that returns, at a cursor no earlier than where it began, it either
found no entry, or took one period of an entry, or found an entry malformed. -/
theorem nextBit_cases (rx : List Duration) (c : Cursor) :
    ∃ c₀ : Cursor, c.idx ≤ c₀.idx ∧ (c₀ = c ∨ c.idx < c₀.idx ∧ c₀.idx ≤ rx.length ∧ c₀.used = 0) ∧
      ((rx.length ≤ c₀.idx ∧ nextBit rx c = (.endOfData, c₀)) ∨
       (∃ d, memRead rx c₀.idx = some d ∧ 534 ≤ remainingLength d c₀.used ∧
          nextBit rx c = (.bit (bitOfEntry d), ⟨c₀.idx, c₀.used + 800⟩)) ∨
       (∃ d, memRead rx c₀.idx = some d ∧ 267 ≤ remainingLength d c₀.used ∧ remainingLength d c₀.used ≤ 533 ∧
          nextBit rx c = (.malformedBit, c₀))) := by
  induction c using nextBit_induct (rx := rx) with
  | hEnd c h => exact ⟨c, le_rfl, .inl rfl, .inl ⟨h, nextBit_of_none h⟩⟩
  | hBit c d hd hr => exact ⟨c, le_rfl, .inl rfl, .inr (.inl ⟨d, hd, hr, nextBit_of_bit hd hr⟩)⟩
  | hMal c d hd hr hr' => exact ⟨c, le_rfl, .inl rfl, .inr (.inr ⟨d, hd, hr, hr', nextBit_of_malformed hd hr hr'⟩)⟩
  | hExh c d hd hr ih =>
    obtain ⟨c₀, hle, hc₀, hcase⟩ := ih
    rw [nextBit_of_exhausted hd hr]
    have hle' : c.idx + 1 ≤ c₀.idx := hle
    have hlt := memRead_lt hd
    refine ⟨c₀, by omega, .inr ?_, hcase⟩
    rcases hc₀ with rfl | ⟨-, hl, h0⟩
    · exact ⟨by simp, by simpa using hlt, rfl⟩
    · exact ⟨by omega, hl, h0⟩

/-! ### Reading several bits -/

theorem reads_nil {rx : List Duration} {c c' : Cursor} : Reads rx c [] c' ↔ c = c' := Iff.rfl

theorem reads_cons {rx : List Duration} {c c' : Cursor} {b : Bool} {bs : List Bool} :
    Reads rx c (b :: bs) c' ↔ ∃ c₁, nextBit rx c = (.bit b, c₁) ∧ Reads rx c₁ bs c' := Iff.rfl

theorem reads_append {rx : List Duration} {as bs : List Bool} {c c' : Cursor} :
    Reads rx c (as ++ bs) c' ↔ ∃ c₁, Reads rx c as c₁ ∧ Reads rx c₁ bs c' := by
  induction as generalizing c with
  | nil => simp [Reads]
  | cons a as ih =>
    simp only [List.cons_append, reads_cons, ih]
    constructor
    · rintro ⟨c₁, h, c₂, h₁, h₂⟩; exact ⟨c₂, ⟨c₁, h, h₁⟩, h₂⟩
    · rintro ⟨c₂, ⟨c₁, h, h₁⟩, h₂⟩; exact ⟨c₁, h, c₂, h₁, h₂⟩

end Machine
end Sys2Proof
end

