-- ==== Sys2Proof/Laws/Framer.lean ====
section
/-! SUPPORT. The framer: what each part of FRAME does when the bits it wants are there, what it can touch, and the first
failure. -/

namespace Sys2Proof
namespace Machine

@[simp] theorem Ran.andThen_ok {α β : Type} (a : α) (d : Dec) (f : α → Dec → Ran β) :
    (Ran.ok a d).andThen f = f a d := rfl

@[simp] theorem Ran.andThen_raised {α β : Type} (c : Cause) (d : Dec) (f : α → Dec → Ran β) :
    (Ran.raised c d : Ran α).andThen f = .raised c d := rfl

/-! ### One bit -/

theorem getBit_of_bit {rx : List Duration} {d : Dec} {b : Bool} {c : Cursor} (h : nextBit rx d.cur = (.bit b, c)) :
    getBit rx d = .ok b (d.setCur c) := by
  simp [getBit, h]

theorem getBit_of_endOfData {rx : List Duration} {d : Dec} {c : Cursor} (h : nextBit rx d.cur = (.endOfData, c)) :
    getBit rx d = .raised .endOfData (d.setCur c) := by
  simp [getBit, h]

theorem getBit_of_malformedBit {rx : List Duration} {d : Dec} {c : Cursor} (h : nextBit rx d.cur = (.malformedBit, c)) :
    getBit rx d = .raised .malformedBit (d.setCur c) := by
  simp [getBit, h]

theorem expectBit_of_bit {rx : List Duration} {d : Dec} {w : Bool} {c : Cursor} (h : nextBit rx d.cur = (.bit w, c)) :
    expectBit w rx d = .ok () (d.setCur c) := by
  simp [expectBit, getBit_of_bit h]

theorem expectBit_of_wrong {rx : List Duration} {d : Dec} {w b : Bool} {c : Cursor}
    (h : nextBit rx d.cur = (.bit b, c)) (hb : b ≠ w) :
    expectBit w rx d = .raised .framingViolation (d.setCur c) := by
  simp [expectBit, getBit_of_bit h, hb]

theorem expectBit_of_endOfData {rx : List Duration} {d : Dec} {w : Bool} {c : Cursor}
    (h : nextBit rx d.cur = (.endOfData, c)) : expectBit w rx d = .raised .endOfData (d.setCur c) := by
  simp [expectBit, getBit_of_endOfData h]

theorem expectBit_of_malformedBit {rx : List Duration} {d : Dec} {w : Bool} {c : Cursor}
    (h : nextBit rx d.cur = (.malformedBit, c)) : expectBit w rx d = .raised .malformedBit (d.setCur c) := by
  simp [expectBit, getBit_of_malformedBit h]

/-! ### One byte -/

/-- The data bits, read in order, shift into `ACC`; `BITN` ends at the last number. -/
theorem dataBits_of_reads {rx : List Duration} (ks : List (Fin 8)) (bs : List Bool) (d : Dec) (c : Cursor)
    (hl : ks.length = bs.length) (h : Reads rx d.cur bs c) :
    dataBits rx ks d =
      .ok () (((d.setCur c).setBitn (ks.getLastD d.bitn)).setAcc (bs.foldl shiftIn d.acc)) := by
  induction ks generalizing bs d with
  | nil =>
    obtain rfl := List.length_eq_zero_iff.mp hl.symm
    obtain rfl := reads_nil.mp h
    rfl
  | cons k ks ih =>
    obtain _ | ⟨b, bs⟩ := bs
    · simp at hl
    obtain ⟨c₁, h₁, h₂⟩ := reads_cons.mp h
    have hg : getBit rx (d.setBitn k) = .ok b ((d.setBitn k).setCur c₁) := getBit_of_bit (by simpa using h₁)
    rw [dataBits, hg, Ran.andThen_ok, ih bs _ (by simpa using hl) (by simpa using h₂)]
    simp only [Dec.setAcc_bitn, Dec.setCur_bitn, Dec.setBitn_bitn, Dec.setAcc_acc, Dec.setCur_acc, Dec.setBitn_acc,
      List.foldl_cons]
    have hk : (k :: ks).getLastD d.bitn = ks.getLastD k := by cases ks <;> rfl
    rw [hk]
    rfl

/-- One shift, bit by bit: the new bit on top, the others one place down (R113). -/
theorem getLsbD_shiftIn (acc : Byte) (b : Bool) (i : Nat) (hi : i < 8) :
    (shiftIn acc b).getLsbD i = if i = 7 then b else acc.getLsbD (i + 1) := by
  rw [shiftIn]
  interval_cases i <;> cases b <;> simp

/-- Eight shifts push out whatever `ACC` held (R113). -/
theorem foldl_shiftIn_dataBitsOf (acc b : Byte) : (dataBitsOf b).foldl shiftIn acc = b := by
  apply BitVec.eq_of_getLsbD_eq
  intro i hi
  interval_cases i <;>
    simp (disch := omega) only [dataBitsOf, bitNumbers, List.map_cons, List.map_nil, List.foldl_cons, List.foldl_nil,
      getLsbD_shiftIn, Nat.reduceAdd, Nat.reduceEqDiff, reduceIte] <;> rfl

theorem dataBitsOf_eq (b : Byte) : dataBitsOf b =
    [b.getLsbD 0, b.getLsbD 1, b.getLsbD 2, b.getLsbD 3, b.getLsbD 4, b.getLsbD 5, b.getLsbD 6, b.getLsbD 7] := rfl

theorem byteBits_eq (b : Byte) : byteBits b = false :: (dataBitsOf b ++ [true, true]) := rfl

/-- A byte frame whose eleven bits are there puts the byte into its slot. -/
theorem byteFrame_of_reads {rx : List Duration} {i : Fin 16} {b : Byte} {d : Dec} {c : Cursor}
    (h : Reads rx d.cur (byteBits b) c) :
    byteFrame rx i d = .ok () (((((d.setSlot i.castSucc).setCur c).setBitn 7).setAcc b).setByte i b) := by
  rw [byteBits_eq, reads_cons] at h
  obtain ⟨c₁, h₁, h⟩ := h
  obtain ⟨c₂, h₂, c₃, h₃, c₄, h₄, rfl⟩ := reads_append.mp h
  rw [byteFrame, expectBit_of_bit (c := c₁) (by simpa using h₁), Ran.andThen_ok,
    dataBits_of_reads bitNumbers (dataBitsOf b) _ c₂ rfl (by simpa using h₂), Ran.andThen_ok,
    expectBit_of_bit (c := c₃) (by simpa using h₃), Ran.andThen_ok,
    expectBit_of_bit (c := c₄) (by simpa using h₄), Ran.andThen_ok]
  simp only [Dec.setAcc_acc, foldl_shiftIn_dataBitsOf, Dec.setCur_acc]
  rfl

/-! ### A packet -/

/-- The byte frames of some slots, read in order, put each byte into its slot. -/
theorem byteFrames_of_reads {rx : List Duration} (p : Packet) :
    ∀ (is : List (Fin 16)) (d : Dec) (c : Cursor), Reads rx d.cur (is.flatMap fun i => byteBits p[i]) c →
      ∃ d' : Dec, byteFrames rx is d = .ok () d' ∧ d'.cur = c ∧ d'.status = d.status ∧ d'.cmdOut = d.cmdOut ∧
        d'.diag = d.diag ∧ d'.returned = d.returned ∧ ∀ j : Fin 16, d'.dpkt[j] = if j ∈ is then p[j] else d.dpkt[j]
  | [], d, c, h => by
    obtain rfl := reads_nil.mp h
    exact ⟨d, rfl, rfl, rfl, rfl, rfl, rfl, by simp⟩
  | i :: is, d, c, h => by
    rw [List.flatMap_cons] at h
    obtain ⟨c₁, h₁, h₂⟩ := reads_append.mp h
    rw [byteFrames, byteFrame_of_reads h₁, Ran.andThen_ok]
    obtain ⟨d', hd', hc, hs, ho, hg, hr, hp⟩ := byteFrames_of_reads p is
      (((((d.setSlot i.castSucc).setCur c₁).setBitn 7).setAcc p[i]).setByte i p[i]) c (by simpa using h₂)
    refine ⟨d', hd', hc, hs, ho, hg, hr, fun j => ?_⟩
    rw [hp j]
    by_cases hj : j ∈ is
    · simp [hj]
    · by_cases hij : j = i
      · subst hij; simp
      · have : (i : ℕ) ≠ j := fun h => hij (Fin.ext h.symm)
        simp [hj, hij, this]

theorem packetBits_eq (p : Packet) : packetBits p = (slotNumbers.flatMap fun i => byteBits p[i]) ++ [true] := by
  obtain ⟨⟨l⟩, hl⟩ := p
  simp only [List.size_toArray] at hl
  match l, hl with
  | [_, _, _, _, _, _, _, _, _, _, _, _, _, _, _, _], _ => rfl

/-- FRAME's loops on a packet whose 177 bits are there: `DPKT` is the packet, and nothing of the unit's results
changes. -/
theorem frameLoops_of_reads {rx : List Duration} {p : Packet} {d : Dec} {c : Cursor}
    (h : Reads rx d.cur (packetBits p) c) :
    ∃ d' : Dec, frameLoops rx d = .ok () d' ∧ d'.cur = c ∧ d'.dpkt = p ∧ d'.status = d.status ∧ d'.cmdOut = d.cmdOut ∧
        d'.diag = d.diag ∧ d'.returned = d.returned := by
  rw [packetBits_eq] at h
  obtain ⟨c₁, h₁, c₂, h₂, rfl⟩ := reads_append.mp h
  obtain ⟨d', hd', hc, hs, ho, hg, hr, hp⟩ := byteFrames_of_reads p slotNumbers d c₁ h₁
  refine ⟨(d'.setSlot 16).setCur c₂, ?_, rfl, ?_, hs, ho, hg, hr⟩
  · rw [frameLoops, hd', Ran.andThen_ok, expectBit_of_bit (by simpa [hc] using h₂)]
  · apply Vector.ext
    intro i hi
    have hmem : (⟨i, hi⟩ : Fin 16) ∈ slotNumbers := by
      have : ∀ j : Fin 16, j ∈ slotNumbers := by decide
      exact this _
    have := hp ⟨i, hi⟩
    rw [if_pos hmem] at this
    simpa using this

/-- FRAME on a packet whose 177 bits are there. -/
theorem runFrame_of_reads {rx : List Duration} {p : Packet} {d : Dec} {c : Cursor} (n : Nat)
    (h : Reads rx d.cur (packetBits p) c) :
    runFrame rx n d = .ok () (((d.setCur c).setDpkt p).forgetFramer n) := by
  obtain ⟨⟨cur, slot, bitn, acc, dpkt, status, cmdOut, diag, returned⟩, hd', rfl, rfl, rfl, rfl, rfl, rfl⟩ :=
    frameLoops_of_reads h
  rw [runFrame, hd']
  rfl

end Machine
end Sys2Proof
end

