-- ==== Sys2Proof/Laws/Entries.lean ====
section
/-! SUPPORT. Duration entries: how many equal bits a clean entry gives, and what the writer emits. -/

namespace Sys2Proof
namespace Machine

/-- The bits a sequence of clean entries holds. -/
def cellsOf (es : List Duration) : List Bool :=
  es.flatMap fun d => List.replicate (cellsIn d) (bitOfEntry d)

@[simp] theorem cellsOf_nil : cellsOf [] = [] := rfl

@[simp] theorem cellsOf_cons (d : Duration) (es : List Duration) :
    cellsOf (d :: es) = List.replicate (cellsIn d) (bitOfEntry d) ++ cellsOf es := by
  simp [cellsOf]

@[simp] theorem cellsOf_append (as bs : List Duration) : cellsOf (as ++ bs) = cellsOf as ++ cellsOf bs := by
  simp [cellsOf]

/-- A clean entry's limits, in the number of its cells. -/
theorem cleanEntry_iff {d : Duration} :
    CleanEntry d ↔ 1 ≤ cellsIn d ∧ 800 * cellsIn d ≤ durationLength d + 266 ∧ durationLength d ≤ 800 * cellsIn d + 266 := by
  constructor
  · rintro ⟨n, h1, h2, h3⟩
    obtain rfl : cellsIn d = n := by unfold cellsIn; omega
    exact ⟨h1, h2, h3⟩
  · intro h; exact ⟨cellsIn d, h⟩

/-- Within one entry: as many bits as whole periods, all of its sign. -/
theorem reads_within_entry {rx : List Duration} {i : Nat} {d : Duration} (hd : memRead rx i = some d) (k n : Nat)
    (h : 800 * (k + n) ≤ durationLength d + 266) :
    Reads rx ⟨i, 800 * k⟩ (List.replicate n (bitOfEntry d)) ⟨i, 800 * (k + n)⟩ := by
  induction n generalizing k with
  | zero => rfl
  | succ n ih =>
    rw [List.replicate_succ, reads_cons]
    refine ⟨⟨i, 800 * k + 800⟩, nextBit_of_bit hd ?_, ?_⟩
    · simp only [remainingLength]; omega
    · have := ih (k + 1) (by omega)
      rwa [show 800 * (k + 1) = 800 * k + 800 by ring, show k + 1 + n = k + (n + 1) by ring] at this

/-- After the last cell of a clean entry the reader goes on with the next entry. -/
theorem nextBit_past_entry {rx : List Duration} {i n : Nat} {d : Duration} (hd : memRead rx i = some d)
    (h : durationLength d ≤ 800 * n + 266) : nextBit rx ⟨i, 800 * n⟩ = nextBit rx ⟨i + 1, 0⟩ :=
  nextBit_of_exhausted hd (by simp only [remainingLength]; omega)

theorem nextBit_functional {rx : List Duration} {as : List Bool} {c c₁ c₂ : Cursor} (h₁ : Reads rx c as c₁)
    (h₂ : Reads rx c as c₂) : c₁ = c₂ := by
  induction as generalizing c with
  | nil => exact h₁.symm.trans h₂
  | cons a as ih =>
    obtain ⟨d₁, e₁, h₁⟩ := h₁
    obtain ⟨d₂, e₂, h₂⟩ := h₂
    obtain rfl : d₁ = d₂ := by simpa using e₁.symm.trans e₂
    exact ih h₁ h₂

/-- Reading through clean entries gives their cells; what comes after is read as if from the entry behind them. -/
theorem reads_through {rx : List Duration} (es : List Duration) (i : Nat)
    (hmem : ∀ k d, es[k]? = some d → memRead rx (i + k) = some d) (hclean : ∀ d ∈ es, CleanEntry d)
    {bs : List Bool} (hbs : bs ≠ []) (c' : Cursor) :
    Reads rx ⟨i, 0⟩ (cellsOf es ++ bs) c' ↔ Reads rx ⟨i + es.length, 0⟩ bs c' := by
  induction es generalizing i with
  | nil => simp
  | cons d es ih =>
    have hd : memRead rx i = some d := by simpa using hmem 0 d rfl
    obtain ⟨-, hlo, hhi⟩ := cleanEntry_iff.mp (hclean d (by simp))
    have hin := reads_within_entry hd 0 (cellsIn d) (by simpa using hlo)
    have hnext : nextBit rx ⟨i, 800 * cellsIn d⟩ = nextBit rx ⟨i + 1, 0⟩ := nextBit_past_entry hd hhi
    have hrest := ih (i + 1) (fun k d' hk => by simpa [Nat.add_right_comm, Nat.add_assoc] using hmem (k + 1) d' (by simpa using hk))
      (fun d' hd' => hclean d' (by simp [hd']))
    rw [cellsOf_cons, List.append_assoc, reads_append, List.length_cons,
      show i + (es.length + 1) = i + 1 + es.length by omega, ← hrest]
    have hne : cellsOf es ++ bs ≠ [] := by simp [hbs]
    obtain ⟨b, bs', hb⟩ := List.exists_cons_of_ne_nil hne
    simp only [Nat.zero_add] at hin
    rw [hb]
    constructor
    · rintro ⟨c₁, h₁, c₂, h₂, h₃⟩
      obtain rfl := nextBit_functional h₁ hin
      exact ⟨c₂, by rwa [← hnext], h₃⟩
    · rintro ⟨c₂, h₂, h₃⟩
      exact ⟨_, hin, c₂, by rwa [hnext], h₃⟩

/-! ### What the writer emits -/

theorem markOf_one_toInt : (markOf 1).toInt = 800 := by decide
theorem spaceOf_one_toInt : (spaceOf 1).toInt = -800 := by decide
theorem stopEntry_toInt : (spaceOf Config.stopBits).toInt = -1600 := by decide
theorem endEntry_toInt : endEntry.toInt = -6400 := by decide

theorem cellEntry_toInt (b : Bool) : (cellEntry b).toInt = if b then -800 else 800 := by
  cases b <;> decide

theorem bitOfEntry_cellEntry (b : Bool) : bitOfEntry (cellEntry b) = b := by
  cases b <;> decide

theorem cellsIn_cellEntry (b : Bool) : cellsIn (cellEntry b) = 1 := by
  cases b <;> decide

theorem cleanEntry_cellEntry (b : Bool) : CleanEntry (cellEntry b) := by
  rw [cleanEntry_iff]; cases b <;> decide

theorem cellsOf_map_cellEntry (bs : List Bool) : cellsOf (bs.map cellEntry) = bs := by
  induction bs with
  | nil => rfl
  | cons b bs ih => simp [ih, cellsIn_cellEntry, bitOfEntry_cellEntry]

/-- A byte frame as written holds exactly the eleven cells of the byte frame (R64). -/
theorem cellsOf_byteEntries (b : Byte) : cellsOf (byteEntries b) = byteBits b := by
  have hm : cellsOf [markOf 1] = [false] := by decide
  have hs : cellsOf [spaceOf Config.stopBits] = [true, true] := by decide
  rw [byteEntries, ← List.singleton_append, cellsOf_append, cellsOf_append, hm, hs, cellsOf_map_cellEntry, byteBits_eq]
  rfl

theorem cleanEntry_of_mem_byteEntries {b : Byte} {d : Duration} (h : d ∈ byteEntries b) : CleanEntry d := by
  have hm : CleanEntry (markOf 1) := cleanEntry_cellEntry false
  have hs : CleanEntry (spaceOf Config.stopBits) := by rw [cleanEntry_iff]; decide
  simp only [byteEntries, List.mem_cons, List.mem_append, List.mem_map, List.not_mem_nil, or_false] at h
  rcases h with rfl | ⟨b', -, rfl⟩ | rfl
  exacts [hm, cleanEntry_cellEntry b', hs]

theorem length_byteEntries (b : Byte) : (byteEntries b).length = 10 := rfl

theorem length_frameEntries (p : Packet) : (frameEntries p).length = 160 := by
  simp [frameEntries, slotNumbers, length_byteEntries]

theorem length_packetEntries (p : Packet) : (packetEntries p).length = 161 := by
  simp [packetEntries, length_frameEntries]

theorem cleanEntry_of_mem_frameEntries {p : Packet} {d : Duration} (h : d ∈ frameEntries p) : CleanEntry d := by
  obtain ⟨i, -, hi⟩ := List.mem_flatMap.mp h
  exact cleanEntry_of_mem_byteEntries hi

/-- The sixteen byte frames as written hold exactly the 176 cells before the end marker. -/
theorem cellsOf_frameEntries (p : Packet) : cellsOf (frameEntries p) ++ [true] = packetBits p := by
  rw [packetBits_eq, frameEntries, cellsOf, List.flatMap_assoc]
  congr 2
  funext i
  exact cellsOf_byteEntries _

/-- On what the writer emits the reader hands out the packet's cells, and stops one cell into the end marker. -/
theorem reads_packetEntries (p : Packet) : Reads (packetEntries p) ⟨0, 0⟩ (packetBits p) ⟨160, 800⟩ := by
  have hend : memRead (packetEntries p) 160 = some endEntry := by
    rw [memRead, packetEntries, List.getElem?_append_right (by rw [length_frameEntries]), length_frameEntries]
    rfl
  rw [← cellsOf_frameEntries, reads_through (frameEntries p) 0 ?_ (fun d hd => cleanEntry_of_mem_frameEntries hd) (by simp),
    length_frameEntries, reads_cons]
  · exact ⟨_, nextBit_of_bit (c := ⟨160, 0⟩) hend (by decide), rfl⟩
  · intro k d hk
    rw [Nat.zero_add, memRead, packetEntries, List.getElem?_append_left (List.getElem?_eq_some_iff.mp hk).1]
    exact hk

/-- Equal-length pieces: place `len * i + k` of the whole is place `k` of piece `i`. -/
theorem getElem?_flatMap_uniform {α β : Type} (f : α → List β) (len : Nat) (hf : ∀ a, (f a).length = len) :
    ∀ (as : List α) (i k : Nat), k < len → (as.flatMap f)[len * i + k]? = as[i]?.bind fun a => (f a)[k]?
  | [], i, k, _ => by simp
  | a :: as, 0, k, hk => by
    rw [List.flatMap_cons, List.getElem?_append_left (by rw [hf]; omega)]
    simp
  | a :: as, i + 1, k, hk => by
    rw [List.flatMap_cons, List.getElem?_append_right (by rw [hf]; nlinarith), hf,
      show len * (i + 1) + k - len = len * i + k by rw [Nat.mul_succ]; omega,
      getElem?_flatMap_uniform f len hf as i k hk, List.getElem?_cons_succ]

/-- Entry `10·i + k` is entry `k` of byte `i` (R172). -/
theorem getElem?_frameEntries (p : Packet) (i : Fin 16) {k : Nat} (hk : k < 10) :
    (frameEntries p)[10 * i.val + k]? = (byteEntries p[i])[k]? := by
  rw [frameEntries, getElem?_flatMap_uniform _ 10 (fun _ => length_byteEntries _) _ _ _ hk]
  have h : ∀ i : Fin 16, slotNumbers[i.val]? = some i := by decide
  rw [h i]
  rfl

/-- WRITE appends the entries of the packet and changes nothing else. -/
theorem Enc.write_eq (e : Enc) : e.write = { e with tx := e.tx ++ packetEntries e.epkt } := by
  suffices h : ∀ (es : List Duration) (e : Enc), es.foldl Enc.memWrite e = { e with tx := e.tx ++ es } from h _ _
  intro es
  induction es with
  | nil => intro e; simp
  | cons d es ih => intro e; rw [List.foldl_cons, ih]; simp [Enc.memWrite]

end Machine
end Sys2Proof
end

