-- ==== Sys2Proof/Laws/Scan.lean ====
section
/-! SUPPORT. FRAME as a scan: one read per cell of the packet's pattern, each tested if its place is a framing place. What FRAME
does on a sequence is what the scan finds there (R111, R112, R119). -/

namespace Sys2Proof
namespace Machine

/-- What the cells of a byte frame must be: the start and the stop bits are fixed, the data bits are not (R64). -/
def bytePattern : List (Option Bool) :=
  some false :: ((bitNumbers.map fun _ => none) ++ [some true, some true])

/-- What the 177 cells of a packet must be (R65). -/
def packetPattern : List (Option Bool) :=
  (slotNumbers.flatMap fun _ => bytePattern) ++ [some true]

/-- Whether a bit is wrong for its place. -/
def wrongAt (want : Option Bool) (b : Bool) : Bool :=
  want == some (!b)

/-- Read one bit per place and stop at the first that fails: the cause, if any, and the cursor. -/
def scan (rx : List Duration) : List (Option Bool) → Cursor → Option Cause × Cursor
  | [], c => (none, c)
  | w :: ws, c =>
    match nextBit rx c with
    | (.endOfData, c') => (some .endOfData, c')
    | (.malformedBit, c') => (some .malformedBit, c')
    | (.bit b, c') => if wrongAt w b then (some .framingViolation, c') else scan rx ws c'

@[simp] theorem scan_nil (rx : List Duration) (c : Cursor) : scan rx [] c = (none, c) := rfl

/-- A scan of two patterns in a row. -/
theorem scan_append (rx : List Duration) (as bs : List (Option Bool)) (c : Cursor) :
    scan rx (as ++ bs) c =
      match scan rx as c with
      | (some cause, c') => (some cause, c')
      | (none, c') => scan rx bs c' := by
  induction as generalizing c with
  | nil => rfl
  | cons a as ih =>
    simp only [List.cons_append, scan]
    rcases nextBit rx c with ⟨o, c'⟩
    cases o with
    | bit b =>
      simp only
      split
      · rfl
      · exact ih c'
    | endOfData => rfl
    | malformedBit => rfl

/-- The bits read all fit their places. -/
def Fits : List (Option Bool) → List Bool → Prop
  | [], [] => True
  | w :: ws, b :: bs => wrongAt w b = false ∧ Fits ws bs
  | _, _ => False

/-- A scan that finds no fault has read bits that fit. -/
theorem scan_eq_none {rx : List Duration} {ws : List (Option Bool)} {c c' : Cursor} :
    scan rx ws c = (none, c') ↔ ∃ bits, Fits ws bits ∧ Reads rx c bits c' := by
  induction ws generalizing c with
  | nil =>
    constructor
    · intro h; exact ⟨[], trivial, by simpa [scan, reads_nil] using h⟩
    · rintro ⟨bits, hf, hr⟩
      cases bits with
      | nil => simpa [scan, reads_nil] using hr
      | cons => exact hf.elim
  | cons w ws ih =>
    rcases hn : nextBit rx c with ⟨o, c₁⟩
    constructor
    · intro h
      rw [scan, hn] at h
      cases o with
      | bit b =>
        simp only at h
        cases hw : wrongAt w b with
        | true => simp [hw] at h
        | false =>
          obtain ⟨bits, hf, hr⟩ := ih.mp (by simpa [hw] using h)
          exact ⟨b :: bits, ⟨hw, hf⟩, c₁, hn, hr⟩
      | endOfData => simp at h
      | malformedBit => simp at h
    · rintro ⟨bits, hf, hr⟩
      cases bits with
      | nil => exact hf.elim
      | cons b bits =>
        obtain ⟨c₂, h₁, h₂⟩ := hr
        obtain ⟨rfl, rfl⟩ : o = .bit b ∧ c₁ = c₂ := by simpa [hn] using h₁
        rw [scan, hn]
        simp only [hf.1]
        exact ih.mpr ⟨bits, hf.2, h₂⟩

/-- A scan whose first cells are read and fit, up to a place that fails. -/
theorem scan_of_reads {rx : List Duration} {ws vs : List (Option Bool)} {bits : List Bool} {c c' : Cursor}
    (hf : Fits ws bits) (hr : Reads rx c bits c') : scan rx (ws ++ vs) c = scan rx vs c' := by
  rw [scan_append, scan_eq_none.mpr ⟨bits, hf, hr⟩]

/-! ### FRAME is the scan of the packet's pattern -/

/-- The unit a part of FRAME leaves. -/
def Ran.unit {α : Type} : Ran α → Dec
  | .ok _ d => d
  | .raised _ d => d

/-- The cause a part of FRAME fails with. -/
def Ran.cause {α : Type} : Ran α → Option Cause
  | .ok _ _ => none
  | .raised c _ => some c

/-- What no part of FRAME touches: the results and what is handed back. -/
def Untouched (d d' : Dec) : Prop :=
  d'.status = d.status ∧ d'.cmdOut = d.cmdOut ∧ d'.diag = d.diag ∧ d'.returned = d.returned

theorem Untouched.trans {a b c : Dec} (h₁ : Untouched a b) (h₂ : Untouched b c) : Untouched a c :=
  ⟨h₂.1.trans h₁.1, h₂.2.1.trans h₁.2.1, h₂.2.2.1.trans h₁.2.2.1, h₂.2.2.2.trans h₁.2.2.2⟩

/-- A part of FRAME, begun on a unit, does what the scan of its cells does. -/
def Scans {α : Type} (rx : List Duration) (ws : List (Option Bool)) (d : Dec) (r : Ran α) : Prop :=
  (r.cause, r.unit.cur) = scan rx ws d.cur ∧ Untouched d r.unit

theorem Scans.ok {α : Type} {rx : List Duration} {d d' : Dec} (a : α) (hc : d'.cur = d.cur) (hu : Untouched d d') :
    Scans rx [] d (Ran.ok a d') :=
  ⟨by simp [Ran.cause, Ran.unit, hc], hu⟩

theorem Scans.andThen {α β : Type} {rx : List Duration} {ws vs : List (Option Bool)} {d : Dec} {r : Ran α}
    {f : α → Dec → Ran β} (h : Scans rx ws d r) (hf : ∀ a d', Scans rx vs d' (f a d')) :
    Scans rx (ws ++ vs) d (r.andThen f) := by
  obtain ⟨h₁, h₂⟩ := h
  rw [Scans, scan_append, ← h₁]
  cases r with
  | ok a d' => exact ⟨(hf a d').1, h₂.trans (hf a d').2⟩
  | raised c d' => exact ⟨rfl, h₂⟩

/-- A part may begin on a unit that differs in nothing the scan looks at. -/
theorem Scans.begin {α : Type} {rx : List Duration} {ws : List (Option Bool)} {d d₀ : Dec} {r : Ran α}
    (h : Scans rx ws d₀ r) (hc : d₀.cur = d.cur) (hu : Untouched d d₀) : Scans rx ws d r :=
  ⟨by rw [← hc]; exact h.1, hu.trans h.2⟩

theorem scans_getBit (rx : List Duration) (d : Dec) : Scans rx [none] d (getBit rx d) := by
  rw [Scans, scan, getBit]
  rcases nextBit rx d.cur with ⟨o, c⟩
  cases o <;> exact ⟨rfl, rfl, rfl, rfl, rfl⟩

theorem scans_expectBit (want : Bool) (rx : List Duration) (d : Dec) :
    Scans rx [some want] d (expectBit want rx d) := by
  rw [Scans, scan, expectBit, getBit]
  rcases nextBit rx d.cur with ⟨o, c⟩
  cases o with
  | bit b =>
    cases b <;> cases want <;> exact ⟨rfl, rfl, rfl, rfl, rfl⟩
  | endOfData => exact ⟨rfl, rfl, rfl, rfl, rfl⟩
  | malformedBit => exact ⟨rfl, rfl, rfl, rfl, rfl⟩

theorem scans_dataBits (rx : List Duration) (ks : List (Fin 8)) (d : Dec) :
    Scans rx (ks.map fun _ => none) d (dataBits rx ks d) := by
  induction ks generalizing d with
  | nil => exact Scans.ok () rfl ⟨rfl, rfl, rfl, rfl⟩
  | cons k ks ih =>
    refine Scans.andThen (ws := [none]) ((scans_getBit rx _).begin rfl ⟨rfl, rfl, rfl, rfl⟩) fun b d' => ?_
    exact (ih _).begin rfl ⟨rfl, rfl, rfl, rfl⟩

theorem scans_byteFrame (rx : List Duration) (i : Fin 16) (d : Dec) : Scans rx bytePattern d (byteFrame rx i d) := by
  have hpat : bytePattern = [some false] ++ ((bitNumbers.map fun _ => none) ++ ([some true] ++ ([some true] ++ []))) := rfl
  rw [hpat, byteFrame]
  refine ((scans_expectBit false rx _).begin rfl ⟨rfl, rfl, rfl, rfl⟩).andThen fun _ d₁ => ?_
  refine ((scans_dataBits rx bitNumbers _).begin rfl ⟨rfl, rfl, rfl, rfl⟩).andThen fun _ d₂ => ?_
  refine (scans_expectBit true rx d₂).andThen fun _ d₃ => ?_
  exact (scans_expectBit true rx d₃).andThen fun _ d₄ => Scans.ok () rfl ⟨rfl, rfl, rfl, rfl⟩

theorem scans_byteFrames (rx : List Duration) (is : List (Fin 16)) (d : Dec) :
    Scans rx (is.flatMap fun _ => bytePattern) d (byteFrames rx is d) := by
  induction is generalizing d with
  | nil => exact Scans.ok () rfl ⟨rfl, rfl, rfl, rfl⟩
  | cons i is ih => exact (scans_byteFrame rx i d).andThen fun _ d' => ih d'

theorem scans_frameLoops (rx : List Duration) (d : Dec) : Scans rx packetPattern d (frameLoops rx d) :=
  (scans_byteFrames rx slotNumbers d).andThen fun _ _ =>
    (scans_expectBit true rx _).begin rfl ⟨rfl, rfl, rfl, rfl⟩

/-- FRAME as an operation is the scan too. -/
theorem scans_runFrame (rx : List Duration) (n : Nat) (d : Dec) : Scans rx packetPattern d (runFrame rx n d) := by
  have h := scans_frameLoops rx d
  rw [runFrame]
  cases hf : frameLoops rx d with
  | ok a d' => rw [hf] at h; exact ⟨h.1, h.2.trans ⟨rfl, rfl, rfl, rfl⟩⟩
  | raised c d' => rw [hf] at h; exact ⟨h.1, h.2.trans ⟨rfl, rfl, rfl, rfl⟩⟩

/-- Where the scan fails, FRAME fails with the same cause and cursor. -/
theorem runFrame_of_scan_some {rx : List Duration} {n : Nat} {d : Dec} {cause : Cause} {c : Cursor}
    (h : scan rx packetPattern d.cur = (some cause, c)) :
    ∃ d' : Dec, runFrame rx n d = .raised cause d' ∧ d'.cur = c ∧ Untouched d d' := by
  obtain ⟨h₁, h₂⟩ := scans_runFrame rx n d
  rw [h] at h₁
  cases hr : runFrame rx n d with
  | ok a d' => rw [hr] at h₁; simp [Ran.cause] at h₁
  | raised c' d' =>
    rw [hr] at h₁ h₂
    simp only [Ran.cause, Ran.unit, Prod.mk.injEq, Option.some.injEq] at h₁
    exact ⟨d', by rw [h₁.1], h₁.2, h₂⟩

/-! ### What fits the packet's pattern is a packet's bits -/

theorem fits_append {as bs : List (Option Bool)} {bits : List Bool} :
    Fits (as ++ bs) bits ↔ ∃ xs ys, bits = xs ++ ys ∧ Fits as xs ∧ Fits bs ys := by
  induction as generalizing bits with
  | nil =>
    constructor
    · intro h; exact ⟨[], bits, rfl, trivial, h⟩
    · rintro ⟨xs, ys, rfl, hx, hy⟩
      cases xs with
      | nil => exact hy
      | cons => exact hx.elim
  | cons a as ih =>
    cases bits with
    | nil =>
      constructor
      · intro h; exact h.elim
      · rintro ⟨xs, ys, h, hx, -⟩
        cases xs with
        | nil => exact hx.elim
        | cons => simp at h
    | cons b bits =>
      constructor
      · rintro ⟨h, ht⟩
        obtain ⟨xs, ys, rfl, hx, hy⟩ := ih.mp ht
        exact ⟨b :: xs, ys, rfl, ⟨h, hx⟩, hy⟩
      · rintro ⟨xs, ys, h, hx, hy⟩
        cases xs with
        | nil => exact hx.elim
        | cons x xs =>
          obtain ⟨rfl, rfl⟩ : b = x ∧ bits = xs ++ ys := by simpa using h
          exact ⟨hx.1, ih.mpr ⟨xs, ys, rfl, hx.2, hy⟩⟩

/-- Any eight bits are the data bits of a byte. -/
theorem exists_byte_of_bits (b0 b1 b2 b3 b4 b5 b6 b7 : Bool) :
    ∃ b : Byte, dataBitsOf b = [b0, b1, b2, b3, b4, b5, b6, b7] := by
  refine ⟨BitVec.ofBoolListLE [b0, b1, b2, b3, b4, b5, b6, b7], ?_⟩
  cases b0 <;> cases b1 <;> cases b2 <;> cases b3 <;> cases b4 <;> cases b5 <;> cases b6 <;> cases b7 <;> rfl

theorem fits_bytePattern {bits : List Bool} : Fits bytePattern bits ↔ ∃ b : Byte, bits = byteBits b := by
  constructor
  · intro h
    match bits, h with
    | [x, b0, b1, b2, b3, b4, b5, b6, b7, y, z], h =>
      obtain ⟨hx, -, -, -, -, -, -, -, -, hy, hz, -⟩ := h
      obtain ⟨b, hb⟩ := exists_byte_of_bits b0 b1 b2 b3 b4 b5 b6 b7
      refine ⟨b, ?_⟩
      rw [byteBits_eq, hb]
      cases x <;> cases y <;> cases z <;> simp_all [wrongAt]
  · rintro ⟨b, rfl⟩
    rw [byteBits_eq, dataBitsOf_eq]
    exact ⟨rfl, rfl, rfl, rfl, rfl, rfl, rfl, rfl, rfl, rfl, rfl, trivial⟩

theorem fits_bytePatterns {is : List (Fin 16)} {bits : List Bool} (hn : is.Nodup) :
    Fits (is.flatMap fun _ => bytePattern) bits ↔ ∃ p : Packet, bits = is.flatMap fun i => byteBits p[i] := by
  induction is generalizing bits with
  | nil =>
    cases bits with
    | nil => exact ⟨fun _ => ⟨zeroPacket, rfl⟩, fun _ => trivial⟩
    | cons => exact ⟨fun h => h.elim, fun ⟨_, h⟩ => by simp at h⟩
  | cons i is ih =>
    obtain ⟨hi, hn⟩ := List.nodup_cons.mp hn
    rw [List.flatMap_cons, fits_append]
    constructor
    · rintro ⟨xs, ys, rfl, hx, hy⟩
      obtain ⟨b, rfl⟩ := fits_bytePattern.mp hx
      obtain ⟨p, rfl⟩ := (ih hn).mp hy
      refine ⟨p.set i b, ?_⟩
      rw [List.flatMap_cons]
      congr 1
      · simp
      · refine List.flatMap_congr fun j hj => ?_
        have hij : (i : ℕ) ≠ j := fun h => hi (Fin.ext h ▸ hj)
        simp [hij]
    · rintro ⟨p, rfl⟩
      exact ⟨_, _, rfl, fits_bytePattern.mpr ⟨p[i], rfl⟩, (ih hn).mpr ⟨p, rfl⟩⟩

/-- The bits that fit the packet's pattern are those of a packet. -/
theorem fits_packetPattern {bits : List Bool} : Fits packetPattern bits ↔ ∃ p : Packet, bits = packetBits p := by
  rw [packetPattern, fits_append]
  constructor
  · rintro ⟨xs, ys, rfl, hx, hy⟩
    obtain ⟨p, rfl⟩ := (fits_bytePatterns (by decide)).mp hx
    match ys, hy with
    | [y], hy =>
      refine ⟨p, ?_⟩
      rw [packetBits_eq]
      cases y with
      | false => simp [Fits, wrongAt] at hy
      | true => rfl
  · rintro ⟨p, rfl⟩
    rw [packetBits_eq]
    exact ⟨_, _, rfl, (fits_bytePatterns (by decide)).mpr ⟨p, rfl⟩, rfl, trivial⟩

/-- Everything FRAME can do: it leaves a packet whose bits it read, or fails where the scan fails. -/
theorem runFrame_cases (rx : List Duration) (n : Nat) (d : Dec) :
    (∃ p c, scan rx packetPattern d.cur = (none, c) ∧ Reads rx d.cur (packetBits p) c ∧
      runFrame rx n d = .ok () (((d.setCur c).setDpkt p).forgetFramer n)) ∨
    (∃ cause c d', scan rx packetPattern d.cur = (some cause, c) ∧ runFrame rx n d = .raised cause d' ∧ d'.cur = c ∧
      Untouched d d') := by
  rcases h : scan rx packetPattern d.cur with ⟨_ | cause, c⟩
  · obtain ⟨bits, hf, hr⟩ := scan_eq_none.mp h
    obtain ⟨p, rfl⟩ := fits_packetPattern.mp hf
    exact .inl ⟨p, c, rfl, hr, runFrame_of_reads n hr⟩
  · obtain ⟨d', h₁, h₂, h₃⟩ := runFrame_of_scan_some (n := n) h
    exact .inr ⟨cause, c, d', rfl, h₁, h₂, h₃⟩

/-! ### Scans that agree -/

/-- Two sequences whose cursors stay in step give the same scan, cause for cause. -/
theorem scan_congr {rx rx' : List Duration} (R : Cursor → Cursor → Prop)
    (hstep : ∀ c c', R c c' → (nextBit rx c).1 = (nextBit rx' c').1 ∧
      ∀ b, (nextBit rx c).1 = .bit b → R (nextBit rx c).2 (nextBit rx' c').2)
    (ws : List (Option Bool)) {c c' : Cursor} (h : R c c') : (scan rx ws c).1 = (scan rx' ws c').1 := by
  induction ws generalizing c c' with
  | nil => rfl
  | cons w ws ih =>
    obtain ⟨ho, hc⟩ := hstep c c' h
    rw [scan, scan]
    rcases h₁ : nextBit rx c with ⟨o, c₁⟩
    rcases h₂ : nextBit rx' c' with ⟨o', c₁'⟩
    obtain rfl : o = o' := by simpa [h₁, h₂] using ho
    cases o with
    | bit b =>
      have hR : R c₁ c₁' := by simpa [h₁, h₂] using hc b (by rw [h₁])
      simp only
      split
      · rfl
      · exact ih hR
    | endOfData => rfl
    | malformedBit => rfl

/-- Sequences whose cursors stay in step give the same bits. -/
theorem reads_congr {rx rx' : List Duration} (R : Cursor → Cursor → Prop)
    (hstep : ∀ c c', R c c' → (nextBit rx c).1 = (nextBit rx' c').1 ∧
      ∀ b, (nextBit rx c).1 = .bit b → R (nextBit rx c).2 (nextBit rx' c').2)
    (bits : List Bool) {c c' : Cursor} (h : R c c') :
    (∃ e, Reads rx c bits e) ↔ ∃ e, Reads rx' c' bits e := by
  induction bits generalizing c c' with
  | nil => simp [reads_nil]
  | cons b bits ih =>
    obtain ⟨ho, hc⟩ := hstep c c' h
    simp only [reads_cons]
    rcases h₁ : nextBit rx c with ⟨o, c₁⟩
    rcases h₂ : nextBit rx' c' with ⟨o', c₁'⟩
    obtain rfl : o = o' := by simpa [h₁, h₂] using ho
    constructor
    · rintro ⟨e, d, hd, he⟩
      obtain ⟨rfl, rfl⟩ : o = .bit b ∧ c₁ = d := by simpa using hd
      have hR : R c₁ c₁' := by simpa [h₁, h₂] using hc b (by rw [h₁])
      obtain ⟨e', he'⟩ := (ih hR).mp ⟨e, he⟩
      exact ⟨e', c₁', rfl, he'⟩
    · rintro ⟨e, d, hd, he⟩
      obtain ⟨rfl, rfl⟩ : o = .bit b ∧ c₁' = d := by simpa using hd
      have hR : R c₁ c₁' := by simpa [h₁, h₂] using hc b (by rw [h₁])
      obtain ⟨e', he'⟩ := (ih hR).mpr ⟨e, he⟩
      exact ⟨e', c₁, rfl, he'⟩

/-! ### Clean sequences -/

/-- Where a cursor stands in a clean sequence: what is left to read is the bits `bits`. -/
def Standing (es : List Duration) (c : Cursor) (bits : List Bool) : Prop :=
  (es.length ≤ c.idx ∧ bits = []) ∨
  ∃ d k, memRead es c.idx = some d ∧ c.used = 800 * k ∧ k ≤ cellsIn d ∧
    bits = List.replicate (cellsIn d - k) (bitOfEntry d) ++ cellsOf (es.drop (c.idx + 1))

theorem standing_start (es : List Duration) : Standing es ⟨0, 0⟩ (cellsOf es) := by
  cases es with
  | nil => exact .inl ⟨le_rfl, rfl⟩
  | cons d es => exact .inr ⟨d, 0, rfl, rfl, Nat.zero_le _, by simp⟩

/-- In a clean sequence NEXT_BIT hands out the next of the bits that are left, and at the end `EndOfData`. -/
theorem nextBit_of_standing {es : List Duration} (hclean : ∀ d ∈ es, CleanEntry d) {c : Cursor} {bits : List Bool}
    (h : Standing es c bits) :
    (bits = [] ∧ (nextBit es c).1 = .endOfData) ∨
    ∃ b rest, bits = b :: rest ∧ (nextBit es c).1 = .bit b ∧ Standing es (nextBit es c).2 rest := by
  induction c using nextBit_induct (rx := es) with
  | hEnd c he =>
    rcases h with ⟨-, rfl⟩ | ⟨d, k, hd, -⟩
    · exact .inl ⟨rfl, by rw [nextBit_of_none he]⟩
    · have := memRead_lt hd; omega
  | hBit c d hd hr =>
    rcases h with ⟨he, -⟩ | ⟨d', k, hd', hu, hk, rfl⟩
    · have := memRead_lt hd; omega
    · obtain rfl : d = d' := by simpa using hd.symm.trans hd'
      have hlt : k < cellsIn d := by
        simp only [remainingLength, hu] at hr
        unfold cellsIn; omega
      refine .inr ⟨bitOfEntry d, List.replicate (cellsIn d - (k + 1)) (bitOfEntry d) ++ cellsOf (es.drop (c.idx + 1)), ?_, ?_, ?_⟩
      · rw [← List.cons_append, ← List.replicate_succ, show cellsIn d - (k + 1) + 1 = cellsIn d - k by omega]
      · rw [nextBit_of_bit hd hr]
      · rw [nextBit_of_bit hd hr]
        exact .inr ⟨d, k + 1, hd, by simp [hu]; ring, hlt, rfl⟩
  | hMal c d hd hr hr' =>
    rcases h with ⟨he, -⟩ | ⟨d', k, hd', hu, hk, rfl⟩
    · have := memRead_lt hd; omega
    · obtain rfl : d = d' := by simpa using hd.symm.trans hd'
      obtain ⟨hi, he⟩ := List.getElem?_eq_some_iff.mp hd
      obtain ⟨-, h₁, h₂⟩ := cleanEntry_iff.mp (hclean d (he ▸ List.getElem_mem hi))
      simp only [remainingLength, hu] at hr hr'
      unfold cellsIn at *
      omega
  | hExh c d hd hr ih =>
    rcases h with ⟨he, -⟩ | ⟨d', k, hd', hu, hk, rfl⟩
    · have := memRead_lt hd; omega
    · obtain rfl : d = d' := by simpa using hd.symm.trans hd'
      rw [nextBit_of_exhausted hd hr]
      apply ih
      obtain ⟨hi, he⟩ := List.getElem?_eq_some_iff.mp hd
      obtain ⟨-, h₁, h₂⟩ := cleanEntry_iff.mp (hclean d (he ▸ List.getElem_mem hi))
      have hkk : k = cellsIn d := by
        simp only [remainingLength, hu] at hr
        omega
      subst hkk
      rcases hn : memRead es (c.idx + 1) with _ | d'
      · have hlen := memRead_eq_none.mp hn
        exact .inl ⟨hlen, by simp [List.drop_eq_nil_of_le hlen]⟩
      · obtain ⟨hi', he'⟩ := List.getElem?_eq_some_iff.mp hn
        refine .inr ⟨d', 0, hn, rfl, Nat.zero_le _, ?_⟩
        rw [List.drop_eq_getElem_cons hi', he']
        simp

/-- The scan of a list of bits: what a scan finds when the reader hands them out one by one. -/
def scanBits : List (Option Bool) → List Bool → Option Cause
  | [], _ => none
  | _ :: _, [] => some .endOfData
  | w :: ws, b :: bs => if wrongAt w b then some .framingViolation else scanBits ws bs

/-- The scan of a clean sequence is the scan of its bits. -/
theorem scan_of_clean {es : List Duration} (hclean : ∀ d ∈ es, CleanEntry d) (ws : List (Option Bool)) :
    (scan es ws ⟨0, 0⟩).1 = scanBits ws (cellsOf es) := by
  suffices h : ∀ c bits, Standing es c bits → (scan es ws c).1 = scanBits ws bits from h _ _ (standing_start es)
  induction ws with
  | nil => intro c bits _; cases bits <;> rfl
  | cons w ws ih =>
    intro c bits hs
    rw [scan]
    rcases hn : nextBit es c with ⟨o, c'⟩
    rcases nextBit_of_standing hclean hs with ⟨rfl, ho⟩ | ⟨b, rest, rfl, ho, hs'⟩
    · obtain rfl : o = .endOfData := by simpa [hn] using ho
      rfl
    · obtain rfl : o = .bit b := by simpa [hn] using ho
      rw [hn] at hs'
      simp only [scanBits]
      split
      · rfl
      · exact ih _ _ hs'

end Machine
end Sys2Proof
end

