-- ==== Sys2Proof/Laws/Codec.lean ====
section
/-! SUPPORT. The validator, the field codec and DECODE: what each can do, once, and the packet PACK makes byte by byte. -/

namespace Sys2Proof
namespace Machine

/-! ### The validator -/

/-- Check (a) by the packet's first ten bytes. -/
theorem preambleMatches_iff (p : Packet) : preambleMatches p = true ↔ p.toList.take 10 = Config.preamble.toList := by
  obtain ⟨⟨l⟩, hl⟩ := p
  simp only [List.size_toArray] at hl
  match l, hl with
  | [_, _, _, _, _, _, _, _, _, _, _, _, _, _, _, _], _ =>
    simp [preambleMatches, preambleNumbers, Config.preamble]

/-- Everything VALIDATE can answer, in its order (R132, R133). -/
theorem validatePacket_cases (p : Packet) :
    (p.toList.take 10 ≠ Config.preamble.toList ∧ validatePacket p = .error .preambleMismatch) ∨
    (p.toList.take 10 = Config.preamble.toList ∧ xor5 p ≠ p[15] ∧ validatePacket p = .error .checksumMismatch) ∨
    (p.toList.take 10 = Config.preamble.toList ∧ xor5 p = p[15] ∧ validatePacket p = .ok (diagOf p)) := by
  unfold validatePacket
  by_cases h : p.toList.take 10 = Config.preamble.toList
  · rw [if_pos ((preambleMatches_iff p).mpr h)]
    by_cases hx : xor5 p = p[15]
    · exact .inr (.inr ⟨h, hx, if_pos hx⟩)
    · exact .inr (.inl ⟨h, hx, if_neg hx⟩)
  · exact .inl ⟨h, if_neg fun hp => h ((preambleMatches_iff p).mp hp)⟩

/-! ### The field codec -/

/-- `(s >> k) & 1` is bit `k`. -/
theorem stateBit_eq (s : Byte) (k : Nat) : stateBit s k = s.getLsbD k := by
  have h : ((s >>> k) &&& 1#8) = (BitVec.ofBool (s.getLsbD k)).setWidth 8 := by
    apply BitVec.eq_of_getLsbD_eq
    intro i hi
    obtain _ | i := i
    · simp
    · simp [BitVec.getLsbD_one]
  rw [stateBit, h]
  cases s.getLsbD k <;> rfl

/-- The state byte PACK writes, bit by bit (R155). -/
theorem stateByteOf_bits (c : Command) :
    (stateByteOf c).getLsbD 0 = c.fanOn ∧ (stateByteOf c).getLsbD 1 = c.special ∧
    (stateByteOf c).getLsbD 2 = c.fanExhaust ∧ (stateByteOf c).getLsbD 3 = c.coverOpen ∧
    (stateByteOf c).getLsbD 4 = c.autoMode ∧ (stateByteOf c).getLsbD 5 = c.warn ∧
    (stateByteOf c).getLsbD 6 = false ∧ (stateByteOf c).getLsbD 7 = false := by
  obtain ⟨a, b, c, d, e, f, _, _⟩ := c
  unfold stateByteOf
  simp only
  revert a b c d e f
  decide

@[simp] theorem packPacket_preamble (c : Command) : (packPacket c).toList.take 10 = Config.preamble.toList := rfl
@[simp] theorem packPacket_state (c : Command) : (packPacket c)[10] = stateByteOf c := rfl
@[simp] theorem packPacket_speed (c : Command) : (packPacket c)[11] = c.fanSpeed := rfl
@[simp] theorem packPacket_temperature (c : Command) : (packPacket c)[12] = c.autoTemperature := rfl
@[simp] theorem packPacket_fill13 (c : Command) : (packPacket c)[13] = Config.fill13 := rfl
@[simp] theorem packPacket_fill14 (c : Command) : (packPacket c)[14] = Config.fill14 := rfl
@[simp] theorem packPacket_checksum (c : Command) : (packPacket c)[15] = xor5 (packPacket c) := rfl

/-! ### DECODE -/

/-- Everything DECODE can do: FRAME's failure, VALIDATE's failure, or the Command with its diagnostics (R191, R214). -/
theorem runDecode_cases (rx : List Duration) (n : Nat) (d : Dec) :
    (∃ cause c, scan rx packetPattern freshCursor = (some cause, c) ∧
      (runDecode rx n d).verdict = (cause.status, none, none) ∧ (runDecode rx n d).cur = c) ∨
    (∃ p c, scan rx packetPattern freshCursor = (none, c) ∧ Reads rx freshCursor (packetBits p) c ∧
      (runDecode rx n d).cur = c ∧ (runDecode rx n d).dpkt = p ∧
      ((∃ cause, validatePacket p = .error cause ∧ (runDecode rx n d).verdict = (cause.status, none, none)) ∨
       (∃ g, validatePacket p = .ok g ∧ (runDecode rx n d).verdict = (.ok, some (unpackPacket p), some g)))) := by
  rcases runFrame_cases rx n (d.setCur freshCursor) with ⟨p, c, hs, hr, hf⟩ | ⟨cause, c, d', hs, hf, hc, -⟩
  · refine .inr ⟨p, c, hs, hr, ?_⟩
    rw [runDecode, hf]
    simp only [Dec.forgetFramer_dpkt, Dec.setDpkt_dpkt]
    cases hv : validatePacket p with
    | error e => exact ⟨rfl, rfl, .inl ⟨e, rfl, rfl⟩⟩
    | ok g => exact ⟨rfl, rfl, .inr ⟨g, rfl, rfl⟩⟩
  · refine .inl ⟨cause, c, hs, ?_, ?_⟩ <;> rw [runDecode, hf]
    · rfl
    · exact hc

end Machine
end Sys2Proof
end

