-- ==== Sys2Proof/Laws/PerInstr.lean ====
section
/-! SUPPORT. Statements made per instruction: the first byte of each instruction's request selects the decoder of its
operands. -/

namespace Sys2Proof
namespace Laws

/-- The decoder of an instruction's operand bytes. -/
def operandDecoder : Instr → List Byte → Except Reject Instr
  | .rdReset => decodeBare .rdReset
  | .nextBit => decodeBare .nextBit
  | .frame => decodeBare .frame
  | .validate => decodeBare .validate
  | .unpack => decodeBare .unpack
  | .pack _ => decodeCommand .pack
  | .write => decodeBare .write
  | .decode _ => decodeSequence
  | .encode _ => decodeCommand .encode
  | .wireBitCellMark => decodeBitCell
  | .wireBitCellSpace => decodeBitCell
  | .wireByteFrame _ => decodeByteFrame
  | .wireEndMarker => decodeEndMarker
  | .wirePacket _ => decodePacket
  | .wireStateByte _ => decodeStateByte
  | .status => decodeBare .status
  | .diag => decodeBare .diag

/-- Decoding an instruction's first byte and any operand bytes is decoding those operand bytes as that instruction's. -/
def LeadSelects.Statement (i : Instr) : Prop :=
  ∀ operands : List Byte, decode (leadByte i :: operands) = operandDecoder i operands

theorem LeadSelects.rdReset : LeadSelects.Statement .rdReset := fun _ => rfl
theorem LeadSelects.nextBit : LeadSelects.Statement .nextBit := fun _ => rfl
theorem LeadSelects.frame : LeadSelects.Statement .frame := fun _ => rfl
theorem LeadSelects.validate : LeadSelects.Statement .validate := fun _ => rfl
theorem LeadSelects.unpack : LeadSelects.Statement .unpack := fun _ => rfl
theorem LeadSelects.pack (cmd : Command) : LeadSelects.Statement (.pack cmd) := fun _ => rfl
theorem LeadSelects.write : LeadSelects.Statement .write := fun _ => rfl
theorem LeadSelects.decode (rx : List Duration) : LeadSelects.Statement (.decode rx) := fun _ => rfl
theorem LeadSelects.encode (cmd : Command) : LeadSelects.Statement (.encode cmd) := fun _ => rfl
theorem LeadSelects.wireBitCellMark : LeadSelects.Statement .wireBitCellMark := fun _ => rfl
theorem LeadSelects.wireBitCellSpace : LeadSelects.Statement .wireBitCellSpace := fun _ => rfl
theorem LeadSelects.wireByteFrame (b : Byte) : LeadSelects.Statement (.wireByteFrame b) := fun _ => by
  simp [Sys2Proof.decode, leadByte, uopOf, decodeOperation, decodeFormat, operandDecoder]
theorem LeadSelects.wireEndMarker : LeadSelects.Statement .wireEndMarker := fun _ => rfl
theorem LeadSelects.wirePacket (p : Packet) : LeadSelects.Statement (.wirePacket p) := fun _ => by
  simp [Sys2Proof.decode, leadByte, uopOf, decodeOperation, decodeFormat, operandDecoder]
theorem LeadSelects.wireStateByte (sb : StateByte) : LeadSelects.Statement (.wireStateByte sb) := fun _ => by
  simp [Sys2Proof.decode, leadByte, uopOf, decodeOperation, decodeFormat, operandDecoder]
theorem LeadSelects.status : LeadSelects.Statement .status := fun _ => rfl
theorem LeadSelects.diag : LeadSelects.Statement .diag := fun _ => rfl

end Laws
end Sys2Proof
end

