-- ==== Sys2Proof/Laws/Step.lean ====
section
/-! SUPPORT. Everything one step can do. -/

namespace Sys2Proof
namespace Machine

/-- A request that names no instruction gives no next state. -/
theorem stopOf_ne_next (why : Reject) (t : State) : stopOf why ≠ .next t := by
  cases why <;> exact nofun

/-- A step with a next state found no request, or reset the units, or ran the instruction its request decodes to, which for
the host's request is one that the host may make. -/
theorem step_cases {s t : State} (h : step s = .next t) :
    (s.requests = [] ∧ t = s) ∨
    (∃ rest, s.requests = .reset :: rest ∧ t = State.hostReset { s with requests := rest }) ∨
    ∃ bytes rest i, decode bytes = .ok i ∧ exec i { s with requests := rest } = .next t ∧
      (s.requests = .component bytes :: rest ∨ s.requests = .host bytes :: rest ∧ hostMay i = true) := by
  rw [step, fetchRequest] at h
  rcases hr : s.requests with _ | ⟨r, rest⟩
  · rw [hr] at h
    exact .inl ⟨rfl, by simpa using h.symm⟩
  · rw [hr] at h
    cases r with
    | reset => exact .inr (.inl ⟨rest, rfl, by simpa using h.symm⟩)
    | host bytes =>
      simp only at h
      cases hd : decode bytes with
      | error why => rw [hd] at h; exact absurd h (stopOf_ne_next why t)
      | ok i =>
        simp only [hd] at h
        cases hm : hostMay i with
        | false => simp [hm] at h
        | true => exact .inr (.inr ⟨bytes, rest, i, hd, by simpa [hm] using h, .inr ⟨rfl, hm⟩⟩)
    | component bytes =>
      simp only at h
      cases hd : decode bytes with
      | error why => rw [hd] at h; exact absurd h (stopOf_ne_next why t)
      | ok i => rw [hd] at h; exact .inr (.inr ⟨bytes, rest, i, hd, h, .inl rfl⟩)

end Machine
end Sys2Proof
end

