-- ==== Sys2Proof/Tests/Slice0.lean ====
section
/-! SUPPORT. Tests on fixed values, and for every statement with hypotheses a witness that meets them. The expected
values are those of spec/95_test_vectors.md (the vector is named at each test) or worked out by hand from the rule named. -/

namespace Sys2Proof
namespace Tests

-- One test after another: the stacks of many threads at once pass the memory limit.
set_option Elab.async false

open Machine

/-! ### Helpers -/

/-- The next state of an outcome. -/
def nextOf : Host.Outcome State Fault Refusal → Option State
  | .next s => some s
  | .fault _ => none
  | .refused _ => none

/-- A state with a receive sequence and a cursor. -/
def reading (rx : List Int) (idx used : Nat) : State :=
  (State.reset.present (rx.map (BitVec.ofInt 32))).setDec (Dec.reset.setCur ⟨idx, used⟩)

/-- A state whose `DPKT` is a packet. -/
def holding (p : Packet) : State :=
  State.reset.setDec (Dec.reset.setDpkt p)

/-- A state whose `EPKT` is a packet. -/
def sending (p : Packet) : State :=
  State.reset.setEnc ⟨p, []⟩

/-- A state with one request. -/
def asked (r : Request) : State :=
  { State.reset with requests := [r] }

/-- The Command `A` of spec/95_test_vectors.md. -/
def cmdA : Command :=
  ⟨true, false, true, true, false, false, 100#8, 68#8⟩

/-- A packet with the preamble `PRE` of spec/95_test_vectors.md. -/
def pre (b10 b11 b12 b13 b14 b15 : Byte) : Packet :=
  #v[0x5A#8, 0xA5#8, 0x80#8, 0x7F#8, 0x40#8, 0xBF#8, 0x20#8, 0xDF#8, 0x10#8, 0xCC#8, b10, b11, b12, b13, b14, b15]

/-- V-VAL-7: byte 9 is 0xEF. -/
def badPreamble : Packet :=
  (pre 0x0D#8 0x64#8 0x44#8 0xFF#8 0x23#8 0xF1#8).set 9 0xEF#8

/-- V-ENC-1m: the Command `A` as 76 merged entries. -/
def merged : List Int :=
  [1600, -800, 800, -1600, 800, -800, 800, -1600, 800, -800, 800, -800, 1600, -800, 800, -2400, 6400, -2400, 800, -5600] ++
  [800, -1600, 5600, -800, 800, -1600, 800, -4800, 800, -2400, 4800, -800, 1600, -1600, 800, -4000, 800, -3200, 4000] ++
  [-800, 2400, -1600, 2400, -1600, 1600, -3200, 800, -800, 800, -1600, 3200, -1600, 2400, -800, 1600, -1600, 800, -1600] ++
  [2400, -800, 2400, -800, 800, -1600, 800, -8000, 800, -1600, 2400, -800, 1600, -1600, 800, -800, 2400, -11200]

/-- The cursor and the outcome after a NEXT_BIT. -/
def readOnce (s : State) : Option (Returned × Nat × Nat) :=
  (nextOf (exec .nextBit s)).map fun t => (t.dec.returned, t.dec.cur.idx, t.dec.cur.used)

/-- What DECODE of a sequence reports. -/
def verdictOf (rx : List Int) : Option (Status × Option Command × Option (BitVec 3)) :=
  (nextOf (exec (.decode (rx.map (BitVec.ofInt 32))) State.reset)).map fun t => t.dec.verdict

/-! ### Well-formedness -/

/-- The one check there is: a WIRE.PACKET without the preamble is ill formed (R66, V-VAL-7). -/
theorem test_wellFormed_refuses_wrong_preamble : (Instr.wirePacket badPreamble).wellFormed = false := by decide

theorem test_wellFormed_accepts_preamble :
    (Instr.wirePacket (pre 0x0D#8 0x64#8 0x44#8 0xFF#8 0x23#8 0xF1#8)).wellFormed = true := by decide

theorem test_hostVisible : Instr.hostVisible (.encode cmdA) = true ∧ Instr.hostVisible .frame = false := by decide

/-! ### Decoding: every constructor's word, written out from R80, R61, R64 to R67, R17 and R18 -/

theorem test_decode_rdReset : decode [0b00000001#8] = .ok .rdReset := by decide
theorem test_decode_nextBit : decode [0b00000010#8] = .ok .nextBit := by decide
theorem test_decode_frame : decode [0b00000011#8] = .ok .frame := by decide
theorem test_decode_validate : decode [0b00000100#8] = .ok .validate := by decide
theorem test_decode_unpack : decode [0b00000101#8] = .ok .unpack := by decide

/-- State byte 0x0D: bits 0, 2, 3 are `fan_on`, `fan_exhaust`, `cover_open` (V-SRC-1b). -/
theorem test_decode_pack : decode [0b00000110#8, 0b00001101#8, 0x64#8, 0x44#8] = .ok (.pack cmdA) := by decide
theorem test_decode_write : decode [0b00000111#8] = .ok .write := by decide

/-- +1600 is 0x00000640 and -800 is 0xFFFFFCE0. -/
theorem test_decode_decode : decode [0b00001000#8, 0x40#8, 0x06#8, 0x00#8, 0x00#8, 0xE0#8, 0xFC#8, 0xFF#8, 0xFF#8] =
    .ok (.decode [BitVec.ofInt 32 1600, BitVec.ofInt 32 (-800)]) := by decide

/-- State byte 0x24: bits 2 and 5 are `fan_exhaust` and `warn` (V-SRC-1a). -/
theorem test_decode_encode : decode [0b00001001#8, 0b00100100#8, 0x64#8, 0x44#8] =
    .ok (.encode ⟨false, false, true, false, false, true, 100#8, 68#8⟩) := by decide
theorem test_decode_mark : decode [0x10#8, 0#8] = .ok .wireBitCellMark := by decide
theorem test_decode_space : decode [0x10#8, 1#8] = .ok .wireBitCellSpace := by decide

/-- Byte 0x23, wire bits `0 11000100 11` (95_test_vectors L2-B): the numeral 0b01100010011. -/
theorem test_decode_byteFrame : decode [0x20#8, 0b00010011#8, 0b011#8] = .ok (.wireByteFrame 0x23#8) := by decide
theorem test_decode_endMarker : decode [0x30#8, 1#8] = .ok .wireEndMarker := by decide
theorem test_decode_packet :
    decode [0x40#8, 0x5A#8, 0xA5#8, 0x80#8, 0x7F#8, 0x40#8, 0xBF#8, 0x20#8, 0xDF#8, 0x10#8, 0xCC#8, 0x24#8, 0x64#8,
      0x44#8, 0xFF#8, 0x23#8, 0xD8#8] =
    .ok (.wirePacket (pre 0x24#8 0x64#8 0x44#8 0xFF#8 0x23#8 0xD8#8)) := by decide

/-- `rrwacxsf` = 10 0 1 0 1 1 0. -/
theorem test_decode_stateByte : decode [0x50#8, 0b10010110#8] =
    .ok (.wireStateByte ⟨2#2, false, true, false, true, true, false⟩) := by decide
theorem test_decode_status : decode [0x60#8] = .ok .status := by decide
theorem test_decode_diag : decode [0x70#8] = .ok .diag := by decide

theorem test_decode_rejects :
    decode [] = .error .empty ∧ decode [0x0A#8] = .error (.unassignedUop 10) ∧ decode [0x00#8] = .error (.unassignedUop 0) ∧
    decode [0x01#8, 0#8] = .error .operandLength ∧ decode [0x06#8, 0x40#8, 0#8, 0#8] = .error .commandReserved ∧
    decode [0x10#8, 2#8] = .error .bitCellPattern ∧ decode [0x20#8, 0#8, 0#8] = .error .byteFramePattern ∧
    decode [0x30#8, 0#8] = .error .endMarkerPattern ∧ decode (0x40#8 :: badPreamble.toList) = .error .packetPattern := by
  decide

theorem test_table_words :
    decodeTableWord 8 3 = some .frame ∧ decodeTableWord 8 8 = some (.decode []) ∧
    decodeTableWord 8 9 = some (.encode ⟨false, false, false, false, false, false, 0#8, 0#8⟩) ∧
    decodeTableWord 16 0x313 = some (.wireByteFrame 0x23#8) ∧ decodeTableWord 8 0 = none := by decide

/-! ### The reader (95_test_vectors L2-A) -/

theorem test_rdReset : (nextOf (exec .rdReset (reading [1600, -800] 1 800))).map (fun t => t.dec.cur) = some ⟨0, 0⟩ := by
  decide

/-- V-RD-1, third call: the advance, then a space. -/
theorem test_nextBit_advances : readOnce (reading [1600, -800] 0 1600) = some (.reader (.bit true), 1, 800) := by decide

/-- V-RD-16, second call: 266 is skipped, 267 is malformed. -/
theorem test_nextBit_malformed : readOnce (reading [800, -266, -267] 0 800) = some (.reader .malformedBit, 2, 0) := by
  decide

/-! ### The framer (95_test_vectors L2-F) -/

/-- V-DEC-2 at component level: the merged sequence frames to the packet of `A`, cursor (75, 5600). -/
theorem test_frame_merged : (nextOf (exec .frame (reading merged 0 0))).map (fun t => (t.dec.dpkt, t.dec.cur, t.dec.returned)) =
    some (pre 0x0D#8 0x64#8 0x44#8 0xFF#8 0x23#8 0xF1#8, ⟨75, 5600⟩, .done) := by decide +kernel

/-- V-DEC-21 at component level: a leading space is read as a start bit of value 1. -/
theorem test_frame_start_bit : (nextOf (exec .frame (reading [-5000, 800] 0 0))).map (fun t => (t.dec.cur, t.dec.returned)) =
    some (⟨0, 800⟩, .raised .framingViolation) := by decide +kernel

/-! ### The validator (95_test_vectors L2-C) -/

/-- V-VAL-10: one reserved bit and byte 13, `DIAG` = 101. -/
theorem test_validate_diag :
    (nextOf (exec .validate (holding (pre 0x4D#8 0x64#8 0x44#8 0xFE#8 0x23#8 0xB0#8)))).map (fun t => t.dec.diag) =
      some (some 0b101#3) := by decide +kernel

/-- V-VAL-8: preamble and checksum both wrong, the preamble is reported. -/
theorem test_validate_order :
    (nextOf (exec .validate (holding ((pre 0x0D#8 0x64#8 0x44#8 0xFF#8 0x23#8 0x0E#8).set 0 0x5B#8)))).map
      (fun t => (t.dec.diag, t.dec.returned)) = some (none, .raised .preambleMismatch) := by decide +kernel

/-! ### The field codec (95_test_vectors L2-D) -/

/-- State 0x15: `fan_on`, `fan_exhaust`, `auto_mode`. -/
theorem test_unpack :
    (nextOf (exec .unpack (holding (pre 0x15#8 0#8 0#8 0xFF#8 0x23#8 0xC9#8)))).map (fun t => t.dec.returned) =
      some (.command ⟨true, false, true, false, true, false, 0#8, 0#8⟩) := by decide +kernel

/-- V-PK-5. -/
theorem test_pack : (nextOf (exec (.pack ⟨false, true, false, false, false, true, 50#8, 29#8⟩) State.reset)).map (fun t => t.enc.epkt) =
    some (pre 0x22#8 0x32#8 0x1D#8 0xFF#8 0x23#8 0xD1#8) := by decide +kernel

/-! ### The writer, ENCODE and DECODE -/

/-- L2-B, byte 0x5A as written, and the end marker; a packet that is no PACK's (R171). -/
theorem test_write : (nextOf (exec .write (sending badPreamble))).map (fun t => ((t.enc.tx.map BitVec.toInt).take 10, t.enc.txLen,
    (t.enc.tx.map BitVec.toInt).drop 160)) =
    some ([800, 800, -800, 800, -800, -800, 800, -800, 800, -1600], 161, [-6400]) := by decide +kernel

/-- V-ENC-1, rows 10 and 15. -/
theorem test_encode : (nextOf (exec (.encode cmdA) State.reset)).map (fun t => (((t.enc.tx.map BitVec.toInt).drop 100).take 10,
    (t.enc.tx.map BitVec.toInt).drop 150)) =
    some ([800, -800, 800, -800, -800, 800, 800, 800, 800, -1600],
      [800, -800, 800, 800, 800, -800, -800, -800, -800, -1600, -6400]) := by decide +kernel

/-- V-DEC-23: 266 added to every entry still decodes to `A`. -/
theorem test_decode_tolerance : verdictOf (merged.map (· + 266)) = some (.ok, some cmdA, some 0#3) := by decide +kernel

/-- V-DEC-24: 267 added to every entry is malformed. -/
theorem test_decode_beyond_tolerance : verdictOf (merged.map (· + 267)) = some (.malformedBit, none, none) := by decide +kernel

/-! ### The wire and the result registers -/

theorem test_mark_and_space : (nextOf (exec .wireBitCellMark (reading [5] 0 0))).map (fun t => t.rx.map BitVec.toInt) =
    some [5, 800] ∧ (nextOf (exec .wireBitCellSpace (reading [5] 0 0))).map (fun t => t.rx.map BitVec.toInt) = some [5, -800] := by
  decide

/-- L2-B, byte 0x0D; and the end marker. -/
theorem test_byteFrame_and_endMarker :
    (nextOf (exec (.wireByteFrame 0x0D#8) State.reset)).map (fun t => t.rx.map BitVec.toInt) =
      some [800, -800, 800, -800, -800, 800, 800, 800, 800, -1600] ∧
    (nextOf (exec .wireEndMarker State.reset)).map (fun t => t.rx.map BitVec.toInt) = some [-6400] := by decide

/-- Wire order f, s, x, c, a, w, then the reserved bits: `fan_on` and `warn`, and bit 7 (R67). -/
theorem test_stateByte :
    (nextOf (exec (.wireStateByte ⟨2#2, true, false, false, false, false, true⟩) State.reset)).map (fun t => t.rx.map BitVec.toInt) =
      some [800, -800, 800, 800, 800, 800, -800, 800, -800, -1600] := by decide

/-- L2-B, bytes 0xCC (byte 9) and 0x01 (byte 10). -/
theorem test_packet :
    (nextOf (exec (.wirePacket (pre 0x01#8 0#8 0#8 0xFF#8 0x23#8 0xDD#8)) State.reset)).map (fun t =>
      (((t.rx.map BitVec.toInt).drop 90).take 20, t.rxLen)) =
      some ([800, 800, 800, -800, -800, 800, 800, -800, -800, -1600, 800, -800, 800, 800, 800, 800, 800, 800, 800, -1600],
        160) := by decide +kernel

theorem test_status : (nextOf (exec .status (State.reset.setDec (Dec.reset.takeFailure .checksumMismatch)))).map
    (fun t => t.dec.returned) = some (.code 6#3) := by decide

theorem test_diag : (nextOf (exec .diag (State.reset.setDec (Dec.reset.accept 5#3 cmdA)))).map (fun t => t.dec.returned) =
    some (.code 5#3) := by decide

/-! ### Steps -/

/-- The word of `RD_RESET` as the first request after reset (R80, R91). -/
theorem test_step_runs_word : (nextOf (step ((reading [5] 1 0).withFetchWord 8 1))).map (fun t => (t.dec.cur, t.requests)) =
    some (⟨0, 0⟩, []) := by decide

theorem test_step_reset : (nextOf (step (asked .reset))).map (fun t => t.dec.status) = some .idle := by decide

/-- The host's request of FRAME is turned away, its request of STATUS is performed (R249). -/
theorem test_step_host : step (asked (.host [0x03#8])) = .refused (.notForHost .frame) ∧
    (nextOf (step (asked (.host [0x60#8])))).map (fun t => t.dec.returned) = some (.code 0#3) := ⟨rfl, by decide⟩

theorem test_step_unassigned : step (asked (.component [0x0F#8])) = .fault (.unassignedUop 15) := rfl

/-! ### Witnesses: each meets all the hypotheses of the statement it is named after -/

theorem witness_DecodeOfEncodeIsTheInstruction :
    (Instr.wirePacket (pre 0xFF#8 0#8 0#8 0#8 0#8 0#8)).wellFormed = true := by decide

theorem witness_DecodedInstructionsAreWellFormed :
    decode (0x40#8 :: (pre 1#8 2#8 3#8 4#8 5#8 6#8).toList) = .ok (.wirePacket (pre 1#8 2#8 3#8 4#8 5#8 6#8)) := by decide

/-- Each of the nine codes with bits 7:4 set. -/
theorem witness_OperationCodesSelectTheOperations :
    (0xF1#8).toNat % 16 = 1 ∧ (0xF2#8).toNat % 16 = 2 ∧ (0xF3#8).toNat % 16 = 3 ∧ (0xF4#8).toNat % 16 = 4 ∧
    (0xF5#8).toNat % 16 = 5 ∧ (0xF6#8).toNat % 16 = 6 ∧ (0xF7#8).toNat % 16 = 7 ∧ (0xF8#8).toNat % 16 = 8 ∧
    (0xF9#8).toNat % 16 = 9 := by decide

/-- The limits of each range: 0xA, 0xF, and 0x0 with bits 7:4 at 0, 8 and 15; from the host and from a component test. -/
theorem witness_UnassignedCodesAreNoOperations :
    (asked (.host [0x0A#8])).requests = [.host [0x0A#8]] ∧ (asked (.component [0xFF#8])).requests = [.component [0xFF#8]] ∧
    10 ≤ (0x0A#8).toNat % 16 ∧ 10 ≤ (0xFF#8).toNat % 16 ∧
    ((0x00#8).toNat % 16 = 0 ∧ (0x00#8).toNat < 16) ∧ ((0x80#8).toNat % 16 = 0 ∧ 128 ≤ (0x80#8).toNat) ∧
    ((0xF0#8).toNat % 16 = 0 ∧ 128 ≤ (0xF0#8).toNat) := by decide

theorem witness_StepRunsTheDecodedInstruction :
    (asked (.component [0x02#8])).requests = [.component [0x02#8]] ∧ decode [0x02#8] = .ok .nextBit ∧
    (asked (.host [0x08#8])).requests = [.host [0x08#8]] ∧ decode [0x08#8] = .ok (.decode []) ∧
    hostMay (.decode []) = true := by decide

/-- One of the seven, and one that is none of them. -/
theorem witness_TheHostCannotCallTheInternalOperations :
    ((asked (.host [0x07#8])).requests = [.host [0x07#8]] ∧ decode [0x07#8] = .ok .write) ∧
    (asked (.host [0x60#8])).requests = [.host [0x60#8]] ∧ decode [0x60#8] = .ok .status ∧
    Instr.status ≠ .rdReset ∧ Instr.status ≠ .nextBit ∧ Instr.status ≠ .frame ∧ Instr.status ≠ .validate ∧
    Instr.status ≠ .unpack ∧ (∀ c, Instr.status ≠ .pack c) ∧ Instr.status ≠ .write :=
  ⟨by decide, rfl, by decide, by decide, by decide, by decide, by decide, by decide, nofun, by decide⟩

/-- A DECODE of the empty sequence by the host, after a DECODE that ended OK. -/
theorem witness_HostStepsKeepTheResultInvariant :
    let s : State := { State.reset.setDec (Dec.reset.accept 0#3 cmdA) with requests := [.host [0x08#8]] }
    s.HostOnly ∧ s.HostInv ∧ ∃ t, step s = .next t :=
  ⟨by simp [State.HostOnly], ⟨by decide, by decide, .inl rfl⟩, _, rfl⟩

/-- An ENCODE (it is no DECODE), and a DECODE (it is no ENCODE). -/
theorem witness_HostStepsWriteOnlyThroughTheirOperations :
    ((asked (.host [0x09#8, 0#8, 0#8, 0#8])).HostOnly ∧ (∃ t, step (asked (.host [0x09#8, 0#8, 0#8, 0#8])) = .next t) ∧
      (∀ rest, (asked (.host [0x09#8, 0#8, 0#8, 0#8])).requests ≠ .reset :: rest) ∧
      ∀ bytes rest rx, (asked (.host [0x09#8, 0#8, 0#8, 0#8])).requests = .host bytes :: rest →
        decode bytes ≠ .ok (.decode rx)) ∧
    (asked (.host [0x08#8])).HostOnly ∧ (∃ t, step (asked (.host [0x08#8])) = .next t) ∧
      (∀ rest, (asked (.host [0x08#8])).requests ≠ .reset :: rest) ∧
      ∀ bytes rest cmd, (asked (.host [0x08#8])).requests = .host bytes :: rest → decode bytes ≠ .ok (.encode cmd) := by
  refine ⟨⟨by simp [State.HostOnly, asked], ⟨_, rfl⟩, nofun, ?_⟩, by simp [State.HostOnly, asked], ⟨_, rfl⟩, nofun, ?_⟩
  · rintro bytes rest rx h he
    obtain ⟨h, -⟩ := List.cons.inj h
    cases h
    exact nomatch (show Except.ok (Instr.encode _) = Except.ok (Instr.decode rx) from he)
  · rintro bytes rest cmd h he
    obtain ⟨h, -⟩ := List.cons.inj h
    cases h
    exact nomatch (show Except.ok (Instr.decode _) = Except.ok (Instr.encode cmd) from he)

theorem witness_StepWithoutRequestChangesNothing : (reading [800] 0 800).requests = [] := by decide

theorem witness_HostResetGivesTheResetValues : (asked .reset).requests = [.reset] := by decide

/-- A cursor with a deficit, at the limit: 800 consumed of 534. -/
theorem witness_EveryStepKeepsTheInvariant :
    ({ reading [534, -800] 0 800 with requests := [.component [0x02#8]] }).Inv ∧
    ∃ t, step { reading [534, -800] 0 800 with requests := [.component [0x02#8]] } = .next t := by
  refine ⟨⟨⟨by decide, by decide, by decide, fun d hd => ?_⟩, ⟨fun h => ?_, fun h => ?_⟩, by decide, fun d hd => ?_⟩, _, rfl⟩
  · obtain rfl : BitVec.ofInt 32 534 = d := Option.some.inj hd
    decide
  · exact absurd h (by decide)
  · exact absurd h (by decide)
  · exact absurd hd (by simp [reading, State.reset, Enc.reset])

theorem witness_HostOperationsKeepTheResultInvariant :
    Instr.hostVisible (.decode []) = true ∧ (State.reset.setDec (Dec.reset.accept 0#3 cmdA)).HostInv ∧
    ∃ t, exec (.decode []) (State.reset.setDec (Dec.reset.accept 0#3 cmdA)) = .next t :=
  ⟨rfl, ⟨by decide, by decide, .inl rfl⟩, _, rfl⟩

theorem witness_UnitsDoNotInterfere :
    (∃ t, exec .frame State.reset = .next t) ∧ ownerOf .frame ≠ .enc ∧ (∃ t, exec .write State.reset = .next t) ∧
    ownerOf .write ≠ .dec ∧ ownerOf .write = .enc ∧ ownerOf .wireEndMarker ≠ .enc ∧ ownerOf .wireEndMarker ≠ .dec :=
  ⟨⟨_, rfl⟩, by decide, ⟨_, rfl⟩, by decide, rfl, by decide, by decide⟩

/-- 534 left: the least that is a bit. -/
theorem witness_NextBitTakesOneBitPeriod :
    (reading [1334] 0 800).rx[(reading [1334] 0 800).dec.cur.idx]? = some 1334#32 ∧
    3 * (((1334#32).toInt.natAbs : Int) - (reading [1334] 0 800).dec.cur.used) > 2 * 800 := by decide

/-- Both ends, 267 and 533. -/
theorem witness_NextBitReportsAMalformedRemainder :
    ((reading [1067] 0 800).rx[(reading [1067] 0 800).dec.cur.idx]? = some 1067#32 ∧
      267 ≤ ((1067#32).toInt.natAbs : Int) - (reading [1067] 0 800).dec.cur.used ∧
      ((1067#32).toInt.natAbs : Int) - (reading [1067] 0 800).dec.cur.used ≤ 533) ∧
    (reading [533] 0 0).rx[(reading [533] 0 0).dec.cur.idx]? = some 533#32 ∧
      267 ≤ ((533#32).toInt.natAbs : Int) - (reading [533] 0 0).dec.cur.used ∧
      ((533#32).toInt.natAbs : Int) - (reading [533] 0 0).dec.cur.used ≤ 533 := by decide

/-- 266 left, and a deficit of 266. -/
theorem witness_NextBitAdvancesPastAnExhaustedEntry :
    ((reading [1066] 0 800).rx[(reading [1066] 0 800).dec.cur.idx]? = some 1066#32 ∧
      ((1066#32).toInt.natAbs : Int) - (reading [1066] 0 800).dec.cur.used ≤ 266) ∧
    (reading [534] 0 800).rx[(reading [534] 0 800).dec.cur.idx]? = some 534#32 ∧
      ((534#32).toInt.natAbs : Int) - (reading [534] 0 800).dec.cur.used ≤ 266 := by decide

/-- At the end already; and one advance before it, from a cursor that R13 and R14 admit. -/
theorem witness_NextBitAtTheEndIsEndOfData : (reading [800] 1 0).rx.length ≤ (reading [800] 1 0).dec.cur.idx ∧
    CursorOk (reading [800] 0 800).rx (reading [800] 0 800).dec.cur ∧
    ∃ t, exec .nextBit (reading [800] 0 800) = .next t ∧ t.dec.returned = .reader .endOfData := by
  refine ⟨by decide, ⟨by decide, by decide, by decide, fun d hd => ?_⟩, _, rfl, by decide⟩
  obtain rfl : BitVec.ofInt 32 800 = d := Option.some.inj hd
  decide

/-- Lengths 1066 and 1067: one cell, then 266 or 267 left. -/
theorem witness_AnEntryYieldsItsCells :
    ((reading [1066] 0 0).rx[0]? = some 1066#32 ∧ 1 = ((1066#32).toInt.natAbs + 266) / 800 ∧
      (266 : Int) = ((1066#32).toInt.natAbs : Int) - 800 * (1 : Nat) ∧ 0 < 1 ∧ (266 : Int) ≤ 266) ∧
    (reading [1067] 0 0).rx[0]? = some 1067#32 ∧ 1 = ((1067#32).toInt.natAbs + 266) / 800 ∧
      (267 : Int) = ((1067#32).toInt.natAbs : Int) - 800 * (1 : Nat) ∧ (267 : Int) ≤ 267 := by decide +kernel

theorem witness_ReaderSignalsRepeat :
    (∃ t, exec .nextBit (reading [] 0 0) = .next t ∧ t.dec.returned = .reader .endOfData) ∧
    ∃ t, exec .nextBit (reading [267] 0 0) = .next t ∧ t.dec.returned = .reader .malformedBit :=
  ⟨⟨_, rfl, by decide⟩, _, rfl, by decide⟩

/-- 266 of either sign, and 0. -/
theorem witness_ShortEntriesNeverMatter :
    ∀ d ∈ [266#32, BitVec.ofInt 32 (-266), 0#32], d.toInt.natAbs ≤ 266 := by
  intro d hd
  simp only [List.mem_cons, List.not_mem_nil, or_false] at hd
  rcases hd with rfl | rfl | rfl <;> decide

/-- `[-800] ++ [+800, +1066] ++ [-534]` with the run as one entry of 1866 (R203). -/
theorem witness_MergingEntriesKeepsTheBits :
    (∀ d ∈ [BitVec.ofInt 32 (-800)] ++ [800#32, 1066#32] ++ [BitVec.ofInt 32 (-534)], CleanEntry d) ∧
    [800#32, 1066#32] ≠ [] ∧ (∀ d ∈ [800#32, 1066#32], (d.toInt < 0 ↔ (1866#32).toInt < 0)) ∧
    (1866#32).toInt.natAbs = ([800#32, 1066#32].map fun d => d.toInt.natAbs).sum ∧ CleanEntry 1866#32 ∧
    cellsIn 1866#32 = ([800#32, 1066#32].map cellsIn).sum := by
  refine ⟨?_, List.cons_ne_nil _ _, ?_, by decide, ⟨2, by decide⟩, by decide⟩
  · intro d hd
    simp only [List.cons_append, List.nil_append, List.mem_cons, List.not_mem_nil, or_false] at hd
    rcases hd with rfl | rfl | rfl | rfl <;> exact ⟨1, by decide⟩
  · intro d hd
    simp only [List.mem_cons, List.not_mem_nil, or_false] at hd
    rcases hd with rfl | rfl <;> decide

theorem witness_FrameAssemblesThePacket :
    Reads (packetEntries badPreamble) ⟨0, 0⟩ (packetBits badPreamble) ⟨160, 800⟩ := reads_packetEntries _

/-- The first read: no entry, and 267 microseconds. -/
theorem witness_FrameKeepsTheReaderSignal :
    (0 < 177 ∧ Reads (reading [] 0 0).rx ⟨0, 0⟩ ((packetBits badPreamble).take 0) ⟨0, 0⟩ ∧
      nextBit (reading [] 0 0).rx ⟨0, 0⟩ = (.endOfData, ⟨0, 0⟩)) ∧
    Reads (reading [267] 0 0).rx ⟨0, 0⟩ ((packetBits badPreamble).take 0) ⟨0, 0⟩ ∧
      nextBit (reading [267] 0 0).rx ⟨0, 0⟩ = (.malformedBit, ⟨0, 0⟩) := ⟨⟨by decide, rfl, rfl⟩, rfl, rfl⟩

/-- The first start bit, read as a 1. -/
theorem witness_FrameRejectsAWrongFramingBit :
    testedCell 0 = true ∧ (packetBits badPreamble)[0]? = some false ∧
    Reads (reading [-800] 0 0).rx ⟨0, 0⟩ ((packetBits badPreamble).take 0) ⟨0, 0⟩ ∧
    nextBit (reading [-800] 0 0).rx ⟨0, 0⟩ = (.bit true, ⟨0, 800⟩) ∧ true ≠ false := ⟨rfl, rfl, rfl, rfl, by decide⟩

theorem witness_FrameUndoesWrite :
    (sending badPreamble).enc.tx = [] ∧ ∃ t u : State, exec .write (sending badPreamble) = .next t ∧ u.rx = t.enc.tx ∧
      u.dec.cur = ⟨0, 0⟩ :=
  ⟨rfl, _, State.reset.present _, rfl, rfl, rfl⟩

/-- V-VAL-7, V-VAL-5 and V-VAL-12: one packet for each of the three cases. -/
theorem witness_ValidateChecksPreambleThenChecksum :
    (holding badPreamble).dec.dpkt = badPreamble ∧ badPreamble.toList.take 10 ≠ Config.preamble.toList ∧
    (pre 0x0D#8 0x64#8 0x44#8 0xFF#8 0x23#8 0xF0#8).toList.take 10 = Config.preamble.toList ∧
    (0x0D#8 ^^^ 0x64#8 ^^^ 0x44#8 ^^^ 0xFF#8 ^^^ 0x23#8 : Byte) ≠ 0xF0#8 ∧
    (pre 0x8D#8 0x64#8 0x44#8 0#8 0#8 0xAD#8).toList.take 10 = Config.preamble.toList ∧
    (0x8D#8 ^^^ 0x64#8 ^^^ 0x44#8 ^^^ 0#8 ^^^ 0#8 : Byte) = 0xAD#8 := by decide

/-- V-VAL-1 is accepted, from any state that holds it. -/
theorem valid_V_VAL_1 : ValidatesTo (pre 0x0D#8 0x64#8 0x44#8 0xFF#8 0x23#8 0xF1#8) .done := by
  intro s h
  refine ⟨s.setDec ((s.dec.setDiag (some 0#3)).handBack .done), ?_, rfl⟩
  have hv : validatePacket (pre 0x0D#8 0x64#8 0x44#8 0xFF#8 0x23#8 0xF1#8) = .ok 0#3 := by decide +kernel
  rw [exec, execValidate, h, hv]

/-- V-VAL-1 and V-VAL-13; bytes 10 and 15, the ends of the range. -/
theorem witness_ChecksumDetectsSingleByteChanges :
    ValidatesTo (pre 0x0D#8 0x64#8 0x44#8 0xFF#8 0x23#8 0xF1#8) .done ∧
    (pre 0x0D#8 0x74#8 0x54#8 0xFF#8 0x23#8 0xF1#8).toList.take 10 =
      (pre 0x0D#8 0x64#8 0x44#8 0xFF#8 0x23#8 0xF1#8).toList.take 10 ∧
    10 ≤ (10 : Fin 16).val ∧ 0#8 ≠ (pre 0x0D#8 0x64#8 0x44#8 0xFF#8 0x23#8 0xF1#8)[(10 : Fin 16)] ∧
    10 ≤ (15 : Fin 16).val ∧ 0#8 ≠ (pre 0x0D#8 0x64#8 0x44#8 0xFF#8 0x23#8 0xF1#8)[(15 : Fin 16)] :=
  ⟨valid_V_VAL_1, by decide, by decide, by decide, by decide, by decide⟩

theorem witness_UnpackSplitsTheStateByte : (holding badPreamble).dec.dpkt = badPreamble := rfl

/-- V-VAL-9 against V-VAL-12: the same Command, other reserved bits and fillers. -/
theorem witness_UnpackDropsReservedBitsAndFillers :
    let s := holding (pre 0xCD#8 0x64#8 0x44#8 0xFF#8 0x23#8 0x31#8)
    let s' := holding (pre 0x8D#8 0x64#8 0x44#8 0#8 0#8 0xAD#8)
    s.dec.dpkt[10] &&& 0x3F#8 = s'.dec.dpkt[10] &&& 0x3F#8 ∧ s.dec.dpkt[11] = s'.dec.dpkt[11] ∧
    s.dec.dpkt[12] = s'.dec.dpkt[12] ∧ ∃ t t', exec .unpack s = .next t ∧ exec .unpack s' = .next t' :=
  ⟨by decide, by decide, by decide, _, _, rfl, rfl⟩

theorem witness_PackedCommandsUnpackToThemselves :
    (∃ t u : State, exec (.pack cmdA) State.reset = .next t ∧ u.dec.dpkt = t.enc.epkt) ∧
    cmdA ≠ ⟨true, false, true, true, false, false, 100#8, 69#8⟩ ∧
    ∃ t t', exec (.pack cmdA) State.reset = .next t ∧
      exec (.pack ⟨true, false, true, true, false, false, 100#8, 69#8⟩) State.reset = .next t' :=
  ⟨⟨_, holding _, rfl, rfl⟩, by decide, _, _, rfl, rfl⟩

/-- An accepted packet with `DIAG` = 000 and one with 111 (V-VAL-1, V-VAL-12). -/
theorem witness_PackRestoresExactlyTheCleanPackets :
    (∃ t u v, exec .validate (holding (pre 0x0D#8 0x64#8 0x44#8 0xFF#8 0x23#8 0xF1#8)) = .next t ∧ t.dec.returned = .done ∧
      t.dec.diag = some 0#3 ∧ exec .unpack t = .next u ∧ u.dec.returned = .command cmdA ∧ exec (.pack cmdA) u = .next v) ∧
    ∃ t u v, exec .validate (holding (pre 0x8D#8 0x64#8 0x44#8 0#8 0#8 0xAD#8)) = .next t ∧ t.dec.returned = .done ∧
      t.dec.diag = some 7#3 ∧ exec .unpack t = .next u ∧ u.dec.returned = .command cmdA ∧ exec (.pack cmdA) u = .next v := by
  refine ⟨⟨_, _, _, rfl, ?_, ?_, rfl, ?_, rfl⟩, _, _, _, rfl, ?_, ?_, rfl, ?_, rfl⟩ <;> decide +kernel

/-- Deviations in bytes 13 and 14 that XOR to zero, and V-VAL-12, whose deviations do not. The second half: PACK leaves the
accepted packet's byte 15 in the first case and not in the second (by hand, R131). -/
theorem witness_DeviantPacketsDifferFromTheirRepack :
    (∃ t u v, exec .validate (holding (pre 0x0D#8 0x64#8 0x44#8 0xFE#8 0x22#8 0xF1#8)) = .next t ∧ t.dec.returned = .done ∧
      t.dec.diag = some 3#3 ∧ exec .unpack t = .next u ∧ u.dec.returned = .command cmdA ∧ exec (.pack cmdA) u = .next v ∧
      v.enc.epkt[15] = 0xF1#8) ∧
    ∃ t u v, exec .validate (holding (pre 0x8D#8 0x64#8 0x44#8 0#8 0#8 0xAD#8)) = .next t ∧ t.dec.returned = .done ∧
      t.dec.diag = some 7#3 ∧ exec .unpack t = .next u ∧ u.dec.returned = .command cmdA ∧ exec (.pack cmdA) u = .next v ∧
      v.enc.epkt[15] ≠ 0xAD#8 := by
  refine ⟨⟨_, _, _, rfl, ?_, ?_, rfl, ?_, rfl, ?_⟩, _, _, _, rfl, ?_, ?_, rfl, ?_, rfl, ?_⟩ <;> decide +kernel

/-- The end marker is the last read, and the first. -/
theorem witness_DecodeReportsTheFirstFailingRead :
    (0 < 177 ∧ Reads (reading [] 0 0).rx ⟨0, 0⟩ ((packetBits badPreamble).take 0) ⟨0, 0⟩ ∧
      nextBit (reading [] 0 0).rx ⟨0, 0⟩ = (.endOfData, ⟨0, 0⟩)) ∧
    nextBit (reading [533] 0 0).rx ⟨0, 0⟩ = (.malformedBit, ⟨0, 0⟩) ∧
    ((packetBits badPreamble)[0]? = some false ∧ nextBit (reading [-800] 0 0).rx ⟨0, 0⟩ = (.bit true, ⟨0, 800⟩) ∧
      true ≠ false ∧ testedCell 0 = true) := ⟨⟨by decide, rfl, rfl⟩, rfl, rfl, rfl, by decide, rfl⟩

theorem witness_AppendedEntriesAreNeverExamined :
    ∃ t, exec (.decode [BitVec.ofInt 32 (-800)]) State.reset = .next t ∧ t.dec.status ≠ .endOfData :=
  ⟨_, rfl, by decide +kernel⟩

/-- For EncodeIsPackThenWrite, DecodeOfEncodedCommandIsTheCommand, PreambleCorruptionIsRejected, TruncationIsEndOfData and
WrongPolarityStopBitIsRejected: ENCODE answers a next state, and the entries spoken of are there, at the
ends of their ranges. -/
theorem witness_encodedSequences : ∃ t, exec (.encode cmdA) State.reset = .next t ∧
    t.enc.tx[10 * 9 + 1 + 7]? = some (BitVec.ofInt 32 (-800)) ∧ t.enc.tx[10 * 0]? = some 800#32 ∧
    t.enc.tx[10 * 9 + 9]? = some (BitVec.ofInt 32 (-1600)) ∧ 160 ≤ 160 ∧ 15 < 16 := by
  refine ⟨_, rfl, ?_⟩
  decide +kernel

theorem witness_AlteredChecksumByteIsRejected :
    let p := pre 0x0D#8 0x64#8 0x44#8 0xFF#8 0x23#8 0xF1#8
    p.toList.take 10 = [0x5A#8, 0xA5#8, 0x80#8, 0x7F#8, 0x40#8, 0xBF#8, 0x20#8, 0xDF#8, 0x10#8, 0xCC#8] ∧
    p[10] ^^^ p[11] ^^^ p[12] ^^^ p[13] ^^^ p[14] = p[15] ∧ 0xF0#8 ≠ p[15] ∧ (sending (p.set 15 0xF0#8)).enc.epkt = p.set 15 0xF0#8 ∧
    (sending (p.set 15 0xF0#8)).enc.tx = [] ∧ ∃ t, exec .write (sending (p.set 15 0xF0#8)) = .next t :=
  ⟨by decide, by decide, by decide, rfl, rfl, _, rfl⟩

theorem witness_BitCellsArriveAsTheirBits :
    (reading [5] 1 0).dec.cur = ⟨(reading [5] 1 0).rx.length, 0⟩ ∧
    (∃ t, exec .wireBitCellMark (reading [5] 1 0) = .next t) ∧ ∃ t, exec .wireBitCellSpace (reading [5] 1 0) = .next t :=
  ⟨rfl, ⟨_, rfl⟩, _, rfl⟩

theorem witness_PacketArrivesAsWriteEmitsIt :
    ((sending badPreamble).enc.epkt = badPreamble ∧ ∃ w, exec .write (sending badPreamble) = .next w) ∧
    State.reset.rx = [] ∧ State.reset.dec.cur = ⟨0, 0⟩ ∧
    ∃ a b, exec (.wirePacket badPreamble) State.reset = .next a ∧ exec .wireEndMarker a = .next b :=
  ⟨⟨rfl, _, rfl⟩, rfl, rfl, _, _, rfl, rfl⟩

theorem witness_DiagReadsTheDiagnosticBits :
    (Dec.reset.accept 5#3 cmdA).status = .ok ∧ (Dec.reset.accept 5#3 cmdA).diag = some 5#3 := ⟨rfl, rfl⟩

end Tests
end Sys2Proof
end

section
/-! SUPPORT. The statements about the state (10_state.md): what each instruction and each step does to it, the invariants,
why the values at reset are immaterial, and the two units. -/

namespace Sys2Proof
namespace Machine

/-! ### What each instruction does: one equation per row, for every state -/

/-- The unit a FRAME requested on its own leaves, with what it hands back (R214, last sentence). -/
def Ran.handed : Ran Unit → Dec
  | .ok _ d => d.handBack .done
  | .raised c d => d.handFailure c

@[simp] theorem Ran.handed_cur (r : Ran Unit) : r.handed.cur = r.unit.cur := by cases r <;> rfl
@[simp] theorem Ran.handed_status (r : Ran Unit) : r.handed.status = r.unit.status := by cases r <;> rfl
@[simp] theorem Ran.handed_cmdOut (r : Ran Unit) : r.handed.cmdOut = r.unit.cmdOut := by cases r <;> rfl

/-- The unit a VALIDATE requested on its own leaves (R132; log entry 11). -/
def Dec.validated (d : Dec) : Dec :=
  match validatePacket d.dpkt with
  | .ok g => (d.setDiag (some g)).handBack .done
  | .error c => (d.setDiag none).handFailure c

@[simp] theorem Dec.validated_cur (d : Dec) : d.validated.cur = d.cur := by
  unfold Dec.validated; split <;> rfl
@[simp] theorem Dec.validated_status (d : Dec) : d.validated.status = d.status := by
  unfold Dec.validated; split <;> rfl
@[simp] theorem Dec.validated_cmdOut (d : Dec) : d.validated.cmdOut = d.cmdOut := by
  unfold Dec.validated; split <;> rfl

section Equations

variable (s : State)

@[simp] theorem exec_rdReset : exec .rdReset s = .next (s.setDec (s.dec.setCur freshCursor)) := rfl

@[simp] theorem exec_nextBit : exec .nextBit s =
    .next (s.setDec ((s.dec.setCur (nextBit s.rx s.dec.cur).2).handBack (.reader (nextBit s.rx s.dec.cur).1))) := rfl

@[simp] theorem exec_frame : exec .frame s =
    .next (s.drawFree.setDec (runFrame s.rx s.freeCount s.dec).handed) := by
  change execFrame s = _
  unfold execFrame
  cases runFrame s.rx s.freeCount s.dec <;> rfl

@[simp] theorem exec_validate : exec .validate s = .next (s.setDec s.dec.validated) := by
  change execValidate s = _
  unfold execValidate Dec.validated
  cases validatePacket s.dec.dpkt <;> rfl

@[simp] theorem exec_unpack : exec .unpack s =
    .next (s.setDec (s.dec.handBack (.command (unpackPacket s.dec.dpkt)))) := rfl

@[simp] theorem exec_pack (cmd : Command) : exec (.pack cmd) s = .next (s.setEnc (s.enc.pack cmd)) := rfl

@[simp] theorem exec_write : exec .write s = .next (s.setEnc s.enc.write) := rfl

@[simp] theorem exec_decode (rx : List Duration) : exec (.decode rx) s =
    .next ((s.present rx).drawFree.setDec (runDecode rx s.freeCount s.dec)) := rfl

@[simp] theorem exec_encode (cmd : Command) : exec (.encode cmd) s =
    .next (s.setEnc (s.enc.pack cmd).clearTx.write) := rfl

@[simp] theorem exec_status : exec .status s =
    .next (s.setDec (s.dec.handBack (.code s.dec.status.code))) := rfl

@[simp] theorem exec_diag : exec .diag s =
    .next (s.drawFree.setDec (s.dec.handBack (.code (s.dec.readDiag s.freeCount)))) := rfl

end Equations

/-- An element of the wire arrives at the end of `RX`, and that is all (log entry 7). -/
theorem exec_of_owner_host {i : Instr} (h : ownerOf i = .host) :
    ∃ entries, ∀ s : State, exec i s = .next (s.deliver entries) := by
  cases i with
  | wireBitCellMark | wireBitCellSpace | wireByteFrame | wireEndMarker | wirePacket | wireStateByte =>
    exact ⟨_, fun _ => rfl⟩
  | _ => cases h

/-- An operation of ENC is a function of ENC alone. -/
theorem exec_of_owner_enc {j : Instr} (h : ownerOf j = .enc) :
    ∃ f : Enc → Enc, ∀ s : State, exec j s = .next (s.setEnc (f s.enc)) := by
  cases j with
  | pack cmd => exact ⟨fun e => e.pack cmd, fun s => exec_pack s cmd⟩
  | write => exact ⟨Enc.write, exec_write⟩
  | encode cmd => exact ⟨fun e => (e.pack cmd).clearTx.write, fun s => exec_encode s cmd⟩
  | _ => cases h

/-- What is no operation of ENC neither looks at ENC nor writes it, and leaves the requests. -/
theorem exec_of_owner_ne_enc {i : Instr} (h : ownerOf i ≠ .enc) (s : State) :
    ∃ t : State, exec i s = .next t ∧ t.enc = s.enc ∧ t.requests = s.requests ∧
      ∀ e : Enc, exec i (s.setEnc e) = .next (t.setEnc e) := by
  cases i with
  | pack | write | encode => exact absurd rfl h
  | frame => exact ⟨_, exec_frame s, rfl, rfl, fun e => exec_frame (s.setEnc e)⟩
  | validate => exact ⟨_, exec_validate s, rfl, rfl, fun e => exec_validate (s.setEnc e)⟩
  | _ => exact ⟨_, rfl, rfl, rfl, fun _ => rfl⟩

/-- No instruction makes or takes a request. -/
theorem exec_requests {i : Instr} {s t : State} (h : exec i s = .next t) : t.requests = s.requests := by
  by_cases hi : ownerOf i = .enc
  · obtain ⟨f, hf⟩ := exec_of_owner_enc hi
    cases (hf s).symm.trans h
    rfl
  · obtain ⟨t', ht', -, hreq, -⟩ := exec_of_owner_ne_enc hi s
    cases ht'.symm.trans h
    exact hreq

/-! ### What a step does with its first request -/

theorem step_of_reset {s : State} {rest : List Request} (h : s.requests = .reset :: rest) :
    step s = .next (State.hostReset { s with requests := rest }) := by
  rw [step, fetchRequest, h]

theorem step_of_component {s : State} {bytes : List Byte} {rest : List Request} {i : Instr}
    (h : s.requests = .component bytes :: rest) (hi : decode bytes = .ok i) :
    step s = exec i { s with requests := rest } := by
  rw [step, fetchRequest, h]
  simp only [hi]

theorem step_of_host {s : State} {bytes : List Byte} {rest : List Request} {i : Instr}
    (h : s.requests = .host bytes :: rest) (hi : decode bytes = .ok i) (hm : hostMay i = true) :
    step s = exec i { s with requests := rest } := by
  rw [step, fetchRequest, h]
  simp only [hi, hm, if_true]

/-- What the host may request: its two operations, the arrivals on its wire, and the two reads (R249). -/
theorem hostMay_cases {i : Instr} (h : hostMay i = true) :
    (∃ rx, i = .decode rx) ∨ (∃ cmd, i = .encode cmd) ∨ ownerOf i = .host ∨ i = .status ∨ i = .diag := by
  cases i with
  | rdReset | nextBit | frame | validate | unpack | pack | write => cases h
  | _ => simp [ownerOf]

theorem hostMay_of_hostVisible {i : Instr} (h : i.hostVisible = true) : hostMay i = true := by
  cases i with
  | decode | encode => rfl
  | _ => cases h

/-! ### The cursor -/

/-- At the start of an entry, or at the end of the sequence, a cursor that has consumed nothing is in order. -/
theorem cursorOk_of_used_eq_zero {rx : List Duration} {c : Cursor} (hi : c.idx ≤ rx.length) (hu : c.used = 0) :
    CursorOk rx c :=
  ⟨hi, by simp [hu], fun _ => hu, fun _ _ => by omega⟩

theorem cursorOk_freshCursor (rx : List Duration) : CursorOk rx freshCursor :=
  cursorOk_of_used_eq_zero (Nat.zero_le _) rfl

/-- Arrivals leave the cursor in order: where it stood at the end it has consumed nothing of what arrives there. -/
theorem CursorOk.append {rx : List Duration} {c : Cursor} (h : CursorOk rx c) (entries : List Duration) :
    CursorOk (rx ++ entries) c := by
  obtain ⟨hi, hdvd, hend, hused⟩ := h
  rcases hi.lt_or_eq with hlt | heq
  · refine ⟨by simp; omega, hdvd, fun he => ?_, fun d hd => hused d ?_⟩
    · simp only [List.length_append] at he; omega
    · rwa [List.getElem?_append_left hlt] at hd
  · exact cursorOk_of_used_eq_zero (by simp; omega) (hend heq)

/-- One NEXT_BIT keeps the cursor in order. It takes a period only where at least 534 microseconds remain, so at most 266
are taken that the entry does not hold. -/
theorem CursorOk.nextBit {rx : List Duration} {c : Cursor} (h : CursorOk rx c) :
    CursorOk rx (nextBit rx c).2 := by
  obtain ⟨c₀, -, hc₀, hcase⟩ := nextBit_cases rx c
  have hok : CursorOk rx c₀ := by
    rcases hc₀ with rfl | ⟨-, hi, hu⟩
    · exact h
    · exact cursorOk_of_used_eq_zero hi hu
  rcases hcase with ⟨-, hn⟩ | ⟨d, hd, hr, hn⟩ | ⟨-, -, -, -, hn⟩ <;> rw [hn]
  · exact hok
  · obtain ⟨hi, hdvd, -, -⟩ := hok
    have hlt := memRead_lt hd
    refine ⟨hi, hdvd.add (dvd_refl 800), fun he => absurd he hlt.ne, fun d' hd' => ?_⟩
    obtain rfl : d = d' := Option.some.inj (hd.symm.trans hd')
    simp only [remainingLength] at hr
    simp only
    omega
  · exact hok

theorem CursorOk.scan {rx : List Duration} (ws : List (Option Bool)) {c : Cursor} (h : CursorOk rx c) :
    CursorOk rx (scan rx ws c).2 := by
  induction ws generalizing c with
  | nil => exact h
  | cons w ws ih =>
    have hn := h.nextBit
    rw [Machine.scan]
    generalize Machine.nextBit rx c = r at hn ⊢
    obtain ⟨b | _ | _, c'⟩ := r
    · simp only
      split
      · exact hn
      · exact ih hn
    · exact hn
    · exact hn

theorem runFrame_cur (rx : List Duration) (n : Nat) (d : Dec) :
    (runFrame rx n d).unit.cur = (scan rx packetPattern d.cur).2 :=
  congrArg Prod.snd (scans_runFrame rx n d).1

/-- DECODE begins at the start of the sequence, so where its reader stops does not depend on where the cursor was. -/
theorem runDecode_cur (rx : List Duration) (n : Nat) (d : Dec) :
    (runDecode rx n d).cur = (scan rx packetPattern freshCursor).2 := by
  rcases runDecode_cases rx n d with ⟨cause, c, hs, -, hc⟩ | ⟨p, c, hs, -, hc, -⟩ <;> rw [hs, hc]

/-! ### The results -/

theorem Cause.status_ne_ok (c : Cause) : c.status ≠ .ok := by cases c <;> decide

/-- A DECODE leaves a cause and no values, or OK and both values (R18, R19). -/
theorem runDecode_verdict_cases (rx : List Duration) (n : Nat) (d : Dec) :
    (∃ cause : Cause, (runDecode rx n d).verdict = (cause.status, none, none)) ∨
    ∃ cmd g, (runDecode rx n d).verdict = (.ok, some cmd, some g) := by
  rcases runDecode_cases rx n d with ⟨cause, -, -, hv, -⟩ | ⟨p, -, -, -, -, -, ⟨cause, -, hv⟩ | ⟨g, -, hv⟩⟩
  · exact .inl ⟨cause, hv⟩
  · exact .inl ⟨cause, hv⟩
  · exact .inr ⟨_, g, hv⟩

/-- `CMD_OUT` and `DIAG` have a value exactly while `STATUS = OK` (R18, R19). -/
def ResultsValued (d : Dec) : Prop :=
  (d.status = .ok ↔ d.cmdOut.isSome) ∧ (d.status = .ok ↔ d.diag.isSome)

theorem hostInv_iff {s : State} :
    s.HostInv ↔ ResultsValued s.dec ∧ (s.enc.txLen = 0 ∨ s.enc.txLen = 161) :=
  and_assoc.symm

theorem resultsValued_reset : ResultsValued Dec.reset := by
  simp [ResultsValued, Dec.reset]

/-- DECODE restores it whatever was there. -/
theorem resultsValued_runDecode (rx : List Duration) (n : Nat) (d : Dec) : ResultsValued (runDecode rx n d) := by
  rcases runDecode_verdict_cases rx n d with ⟨cause, hv⟩ | ⟨cmd, g, hv⟩ <;>
    obtain ⟨hs, ho, hg⟩ : _ ∧ _ ∧ _ := by simpa [Dec.verdict] using hv
  · simp [ResultsValued, hs, ho, hg, cause.status_ne_ok]
  · simp [ResultsValued, hs, ho, hg]

theorem ResultOk.congr {d d' : Dec} (h : ResultOk d) (hs : d'.status = d.status) (ho : d'.cmdOut = d.cmdOut) :
    ResultOk d' := by
  rw [ResultOk, hs, ho]; exact h

/-- FRAME requested on its own writes no result. -/
theorem ResultOk.frame {d : Dec} (h : ResultOk d) (rx : List Duration) (n : Nat) :
    ResultOk (runFrame rx n d).handed := by
  obtain ⟨-, hs, ho, -, -⟩ := scans_runFrame rx n d
  exact h.congr (by simpa using hs) (by simpa using ho)

/-- VALIDATE requested on its own writes neither `STATUS` nor `CMD_OUT`. -/
theorem ResultOk.validate {d : Dec} (h : ResultOk d) : ResultOk d.validated :=
  h.congr d.validated_status d.validated_cmdOut

/-! ### The transmit sequence -/

/-- The four entries WRITE appends (R172). -/
theorem toInt_of_mem_packetEntries {p : Packet} {d : Duration} (h : d ∈ packetEntries p) :
    d.toInt = 800 ∨ d.toInt = -800 ∨ d.toInt = -1600 ∨ d.toInt = -6400 := by
  simp only [packetEntries, frameEntries, byteEntries, List.mem_append, List.mem_flatMap, List.mem_cons, List.mem_map,
    List.not_mem_nil, or_false] at h
  rcases h with ⟨_, -, rfl | ⟨b, -, rfl⟩ | rfl⟩ | rfl
  · exact .inl markOf_one_toInt
  · cases b <;> simp [cellEntry_toInt]
  · exact .inr (.inr (.inl stopEntry_toInt))
  · exact .inr (.inr (.inr endEntry_toInt))

/-- WRITE adds one whole sequence of 161 entries. -/
theorem txLen_write (e : Enc) : e.write.txLen = e.txLen + 161 := by
  simp [Enc.write_eq, Enc.txLen, length_packetEntries]

theorem transmitOk_of_tx_eq_nil {e : Enc} (h : e.tx = []) : TransmitOk e := by
  simp [TransmitOk, Enc.txLen, h]

theorem TransmitOk.write {e : Enc} (h : TransmitOk e) : TransmitOk e.write := by
  obtain ⟨hlen, hmem⟩ := h
  refine ⟨by rw [txLen_write]; exact hlen.add (dvd_refl 161), fun d hd => ?_⟩
  rw [Enc.write_eq] at hd
  rcases List.mem_append.mp hd with hd | hd
  · exact hmem d hd
  · exact toInt_of_mem_packetEntries hd

/-! ### The invariants along a step -/

theorem inv_hostReset (s : State) : s.hostReset.Inv :=
  ⟨cursorOk_freshCursor s.rx, resultsValued_reset.1, transmitOk_of_tx_eq_nil rfl⟩

theorem hostInv_hostReset (s : State) : s.hostReset.HostInv :=
  hostInv_iff.mpr ⟨resultsValued_reset, .inl rfl⟩

theorem inv_setEnc {s : State} {e : Enc} (h : s.Inv) (he : TransmitOk e) : (s.setEnc e).Inv := by
  obtain ⟨hcur, hres, -⟩ := h
  exact ⟨hcur, hres, he⟩

theorem hostInv_setEnc {s : State} {e : Enc} (h : s.HostInv) (he : e.txLen = 0 ∨ e.txLen = 161) :
    (s.setEnc e).HostInv := by
  obtain ⟨hres, -⟩ := hostInv_iff.mp h
  exact hostInv_iff.mpr ⟨hres, he⟩

/-- Every instruction keeps the invariant, at component level too. -/
theorem exec_keeps_inv (i : Instr) {s : State} (h : s.Inv) : ∃ t : State, exec i s = .next t ∧ t.Inv := by
  have ⟨hcur, hres, htx⟩ := h
  cases i with
  | rdReset => exact ⟨_, exec_rdReset s, cursorOk_freshCursor s.rx, hres, htx⟩
  | nextBit => exact ⟨_, exec_nextBit s, hcur.nextBit, hres, htx⟩
  | frame =>
    refine ⟨_, exec_frame s, ?_, hres.frame s.rx s.freeCount, htx⟩
    simp only [State.setDec_dec, State.setDec_rx, State.drawFree_rx, Ran.handed_cur, runFrame_cur]
    exact hcur.scan packetPattern
  | validate => exact ⟨_, exec_validate s, by simpa using hcur, hres.validate, htx⟩
  | unpack => exact ⟨_, exec_unpack s, hcur, hres, htx⟩
  | pack cmd => exact ⟨_, exec_pack s cmd, inv_setEnc h htx⟩
  | write => exact ⟨_, exec_write s, inv_setEnc h htx.write⟩
  | decode rx =>
    refine ⟨_, exec_decode s rx, ?_, (resultsValued_runDecode rx s.freeCount s.dec).1, htx⟩
    simp only [State.setDec_dec, State.setDec_rx, State.drawFree_rx, State.present_rx, runDecode_cur]
    exact (cursorOk_freshCursor rx).scan packetPattern
  | encode cmd => exact ⟨_, exec_encode s cmd, inv_setEnc h (transmitOk_of_tx_eq_nil rfl).write⟩
  | status => exact ⟨_, exec_status s, hcur, hres, htx⟩
  | diag => exact ⟨_, exec_diag s, hcur, hres, htx⟩
  | wireBitCellMark | wireBitCellSpace | wireByteFrame | wireEndMarker | wirePacket | wireStateByte =>
    exact ⟨_, rfl, hcur.append _, hres, htx⟩

/-- What the host may request keeps the host's invariant. -/
theorem exec_keeps_hostInv {i : Instr} (hm : hostMay i = true) {s : State} (h : s.HostInv) :
    ∃ t : State, exec i s = .next t ∧ t.HostInv := by
  have ⟨_, htx⟩ := hostInv_iff.mp h
  rcases hostMay_cases hm with ⟨rx, rfl⟩ | ⟨cmd, rfl⟩ | hi | rfl | rfl
  · exact ⟨_, exec_decode s rx, hostInv_iff.mpr ⟨resultsValued_runDecode rx s.freeCount s.dec, htx⟩⟩
  · exact ⟨_, exec_encode s cmd, hostInv_setEnc h (.inr (txLen_write _))⟩
  · obtain ⟨entries, he⟩ := exec_of_owner_host hi
    exact ⟨_, he s, h⟩
  · exact ⟨_, exec_status s, h⟩
  · exact ⟨_, exec_diag s, h⟩

/-- Settles O13: by what a step can do, from the reset and from each instruction. -/
theorem everyStepKeepsTheInvariant : Obligations.EveryStepKeepsTheInvariant := by
  intro s t hs h
  rcases step_cases h with ⟨-, rfl⟩ | ⟨rest, -, rfl⟩ | ⟨-, rest, i, -, hexec, -⟩
  · exact hs
  · exact inv_hostReset _
  · obtain ⟨t', ht', hinv⟩ := exec_keeps_inv i (s := { s with requests := rest }) hs
    cases ht'.symm.trans hexec
    exact hinv

/-- Settles O14: the two operations are among what the host may request. -/
theorem hostOperationsKeepTheResultInvariant : Obligations.HostOperationsKeepTheResultInvariant := by
  intro i s t hv hs h
  obtain ⟨t', ht', hinv⟩ := exec_keeps_hostInv (hostMay_of_hostVisible hv) hs
  cases ht'.symm.trans h
  exact hinv

/-- With the first request taken, the requests still to come are the host's as well. -/
theorem State.HostOnly.tail {s : State} {r : Request} {rest : List Request} (h : s.HostOnly)
    (hr : s.requests = r :: rest) : ∀ bytes : List Byte, .component bytes ∉ rest :=
  fun bytes hb => h bytes (hr ▸ List.mem_cons_of_mem r hb)

/-- Settles O15: by what a step can do; a request that is no component test's is a reset or what the host may request. -/
theorem hostStepsKeepTheResultInvariant : Obligations.HostStepsKeepTheResultInvariant := by
  intro s t hhost hs h
  rcases step_cases h with ⟨-, rfl⟩ | ⟨rest, hr, rfl⟩ | ⟨bytes, rest, i, -, hexec, hr | ⟨hr, hm⟩⟩
  · exact ⟨hhost, hs⟩
  · exact ⟨hhost.tail hr, hostInv_hostReset _⟩
  · exact absurd (hr ▸ List.mem_cons_self) (hhost bytes)
  · obtain ⟨t', ht', hinv⟩ := exec_keeps_hostInv hm (s := { s with requests := rest }) hs
    cases ht'.symm.trans hexec
    refine ⟨?_, hinv⟩
    rw [State.HostOnly, exec_requests hexec]
    exact hhost.tail hr

/-- Settles O12: the reset state is the host's reset of itself. -/
theorem resetMeetsTheInvariants : Obligations.ResetMeetsTheInvariants :=
  ⟨inv_hostReset State.reset, hostInv_hostReset State.reset⟩

/-! ### The result does not depend on the state before -/

/-- FRAME from the same cursor finds the same packet or the same cause, so DECODE's verdict is the argument's alone
(R31, R32). -/
theorem runDecode_verdict_congr (rx : List Duration) (n n' : Nat) (d d' : Dec) :
    (runDecode rx n d).verdict = (runDecode rx n' d').verdict := by
  rcases runFrame_cases rx n (d.setCur freshCursor) with ⟨p, c, -, hr, hf⟩ | ⟨cause, c, e, hs, hf, -, -⟩
  · have hf' := runFrame_of_reads (d := d'.setCur freshCursor) n' hr
    rw [runDecode, runDecode, hf, hf']
    simp only [Dec.forgetFramer_dpkt, Dec.setDpkt_dpkt]
    cases validatePacket p <;> rfl
  · obtain ⟨e', hf', -, -⟩ := runFrame_of_scan_some (n := n') (d := d'.setCur freshCursor) hs
    rw [runDecode, runDecode, hf, hf']
    rfl

/-- ENCODE writes all of ENC, so nothing of it is left (R192). -/
theorem write_clearTx_pack_congr (e e' : Enc) (cmd : Command) :
    (e.pack cmd).clearTx.write = (e'.pack cmd).clearTx.write := by
  have h : (e.pack cmd).clearTx = (e'.pack cmd).clearTx := rfl
  rw [h]

/-- Settles O10: neither DECODE's verdict nor what ENCODE leaves looks at the state before. -/
theorem resetValuesAndTheirImmateriality : Obligations.ResetValuesAndTheirImmateriality := by
  refine ⟨⟨rfl, rfl, rfl, rfl, rfl, rfl⟩, fun s => ⟨fun rx => ?_, fun cmd => ?_⟩⟩
  · exact ⟨_, _, exec_decode s rx, exec_decode State.reset rx, runDecode_verdict_congr rx _ _ _ _⟩
  · refine ⟨_, _, exec_encode s cmd, exec_encode State.reset cmd, ?_, rfl⟩
    simp only [State.setEnc_enc]
    exact write_clearTx_pack_congr s.enc State.reset.enc cmd

/-! ### The two units -/

/-- Settles O17: an operation of ENC is a function of ENC, which no other instruction looks at or writes. -/
theorem unitsDoNotInterfere : Obligations.UnitsDoNotInterfere := by
  refine ⟨fun i s t h => ⟨fun hi => ?_, fun hi => ?_, exec_requests h⟩, fun i j s hi hj => ?_⟩
  · obtain ⟨t', ht', henc, -, -⟩ := exec_of_owner_ne_enc hi s
    cases ht'.symm.trans h
    exact henc
  · cases ho : ownerOf i with
    | dec => exact absurd ho hi
    | enc =>
      obtain ⟨f, hf⟩ := exec_of_owner_enc ho
      cases (hf s).symm.trans h
      rfl
    | host =>
      obtain ⟨entries, he⟩ := exec_of_owner_host ho
      cases (he s).symm.trans h
      rfl
  · obtain ⟨f, hf⟩ := exec_of_owner_enc hj
    obtain ⟨a, ha, henc, -, hset⟩ := exec_of_owner_ne_enc hi s
    exact ⟨a, _, _, ha, by rw [hf a, henc], hf s, hset _⟩

/-! ### One step, and the two reads -/

/-- Settles O6, for each of the two kinds of request. -/
theorem stepRunsTheDecodedInstruction : Obligations.StepRunsTheDecodedInstruction :=
  fun _ _ _ _ hi => ⟨fun hr => step_of_component hr hi, fun hr hm => step_of_host hr hi hm⟩

/-- Settles O9: the step is the reset of both units and nothing more. -/
theorem hostResetGivesTheResetValues : Obligations.HostResetGivesTheResetValues :=
  fun _ _ hr => ⟨_, step_of_reset hr, rfl, rfl, rfl, rfl, rfl, rfl, rfl, rfl⟩

/-- R17's list, read both ways. -/
theorem Status.code_toNat_iff (st : Status) :
    st.code.toNat ≠ 7 ∧ (st.code.toNat = 0 ↔ st = .idle) ∧ (st.code.toNat = 1 ↔ st = .ok) ∧
    (st.code.toNat = 2 ↔ st = .endOfData) ∧ (st.code.toNat = 3 ↔ st = .malformedBit) ∧
    (st.code.toNat = 4 ↔ st = .framingViolation) ∧ (st.code.toNat = 5 ↔ st = .preambleMismatch) ∧
    (st.code.toNat = 6 ↔ st = .checksumMismatch) := by
  cases st <;> decide

/-- Settles O55: the value handed back is the code of R17's list. -/
theorem statusReadsTheResultCode : Obligations.StatusReadsTheResultCode :=
  fun s => ⟨s.dec.status.code, exec_status s, s.dec.status.code_toNat_iff⟩

theorem Dec.readDiag_of_ok {d : Dec} {g : BitVec 3} (hs : d.status = .ok) (hg : d.diag = some g) (n : Nat) :
    d.readDiag n = g := by
  rw [Dec.readDiag, hs, hg]

/-- Settles O56: the read writes the model's own register alone. -/
theorem diagReadsTheDiagnosticBits : Obligations.DiagReadsTheDiagnosticBits :=
  fun s => ⟨s.dec.readDiag s.freeCount, _, exec_diag s, rfl, rfl, rfl, rfl,
    fun _ hs hg => Dec.readDiag_of_ok hs hg _⟩

end Machine
end Sys2Proof
end

section
/-! SUPPORT. The statements about the encoding (30_encoding.md): the request container there and back, what its decoder
accepts, which requests stop a step, and the arrivals on the wire. -/

namespace Sys2Proof

/-! ### Operands there and back -/

/-- The four bytes of an entry hold its 32 bits (log entry 2). -/
@[simp] theorem durationOfBytes_extract (d : Duration) :
    durationOfBytes (d.extractLsb' 0 8) (d.extractLsb' 8 8) (d.extractLsb' 16 8) (d.extractLsb' 24 8) = d := by
  apply BitVec.eq_of_getLsbD_eq
  intro i hi
  simp only [durationOfBytes, BitVec.getLsbD_or, BitVec.getLsbD_shiftLeft, BitVec.getLsbD_setWidth,
    BitVec.getLsbD_extractLsb']
  interval_cases i <;> simp

@[simp] theorem durationsOfBytes_bytesOfDurations (rx : List Duration) :
    durationsOfBytes (bytesOfDurations rx) = some rx := by
  induction rx with
  | nil => rfl
  | cons d rx ih => simp [bytesOfDurations, bytesOfDuration, durationsOfBytes, ih]

/-- The state byte `rrwacxsf`, bit by bit (R67). -/
theorem byteOfStateByte_bits (sb : StateByte) :
    (byteOfStateByte sb).getLsbD 0 = sb.fanOn ∧ (byteOfStateByte sb).getLsbD 1 = sb.special ∧
    (byteOfStateByte sb).getLsbD 2 = sb.fanExhaust ∧ (byteOfStateByte sb).getLsbD 3 = sb.coverOpen ∧
    (byteOfStateByte sb).getLsbD 4 = sb.autoMode ∧ (byteOfStateByte sb).getLsbD 5 = sb.warn ∧
    (byteOfStateByte sb).getLsbD 6 = sb.reserved.getLsbD 0 ∧ (byteOfStateByte sb).getLsbD 7 = sb.reserved.getLsbD 1 := by
  simp [byteOfStateByte]

@[simp] theorem stateByteOfByte_byteOfStateByte (sb : StateByte) : stateByteOfByte (byteOfStateByte sb) = sb := by
  obtain ⟨h₀, h₁, h₂, h₃, h₄, h₅, h₆, h₇⟩ := byteOfStateByte_bits sb
  have hr : (byteOfStateByte sb).extractLsb' 6 2 = sb.reserved := by
    apply BitVec.eq_of_getLsbD_eq
    intro i hi
    interval_cases i
    · simpa using h₆
    · simpa using h₇
  simp only [stateByteOfByte, h₀, h₁, h₂, h₃, h₄, h₅, hr]

@[simp] theorem byteOfFramePattern_byteFramePattern (b : Byte) : byteOfFramePattern (byteFramePattern b) = b := by
  have h : (byteFramePattern b).extractLsb' 2 8 = b.reverse := by
    apply BitVec.eq_of_getLsbD_eq
    intro i hi
    simp only [byteFramePattern, BitVec.getLsbD_extractLsb', BitVec.getLsbD_or, BitVec.getLsbD_shiftLeft,
      BitVec.getLsbD_setWidth]
    interval_cases i <;> simp
  rw [byteOfFramePattern, h]
  apply BitVec.eq_of_getLsbD_eq
  intro i hi
  simp

/-- A numeral of sixteen bits is its low byte and its high byte. -/
theorem join_low_high (v : BitVec 16) :
    (v.extractLsb' 0 8).setWidth 16 ||| ((v.extractLsb' 8 8).setWidth 16 <<< 8) = v := by
  apply BitVec.eq_of_getLsbD_eq
  intro i hi
  simp only [BitVec.getLsbD_or, BitVec.getLsbD_shiftLeft, BitVec.getLsbD_setWidth, BitVec.getLsbD_extractLsb']
  interval_cases i <;> simp

@[simp] theorem packetOfBytes_toList (p : Packet) : packetOfBytes p.toList = some p := by
  obtain ⟨⟨l⟩, hl⟩ := p
  have hlen : l.length = 16 := by simpa using hl
  simp [packetOfBytes, hlen]

/-! ### Each row's operand decoder on the row's operand bytes -/

@[simp] theorem decodeCommand_bytesOfCommand (mk : Command → Instr) (c : Command) :
    decodeCommand mk (bytesOfCommand c) = .ok (mk c) := by
  simp [decodeCommand, bytesOfCommand, commandOfBytes]

@[simp] theorem decodeSequence_bytesOfDurations (rx : List Duration) :
    decodeSequence (bytesOfDurations rx) = .ok (.decode rx) := by
  simp [decodeSequence]

@[simp] theorem decodeByteFrame_byteFramePattern (b : Byte) :
    decodeByteFrame [(byteFramePattern b).extractLsb' 0 8, (byteFramePattern b).extractLsb' 8 8] =
      .ok (.wireByteFrame b) := by
  simp [decodeByteFrame, join_low_high]

theorem decodePacket_toList {p : Packet} (h : packetPatternFits p = true) : decodePacket p.toList = .ok (.wirePacket p) := by
  simp [decodePacket, h]

@[simp] theorem decodeStateByte_byteOfStateByte (sb : StateByte) :
    decodeStateByte [byteOfStateByte sb] = .ok (.wireStateByte sb) := by
  simp [decodeStateByte]

/-- The first byte of an instruction's request selects the decoder of that instruction's operands. -/
theorem decode_encode_eq_operandDecoder (i : Instr) : decode (encode i) = Laws.operandDecoder i (operandBytes i) := by
  cases i with
  | wireByteFrame b => exact Laws.LeadSelects.wireByteFrame b _
  | wirePacket p => exact Laws.LeadSelects.wirePacket p _
  | wireStateByte sb => exact Laws.LeadSelects.wireStateByte sb _
  | _ => rfl

/-- Settles O1: the first byte selects the row, and the row's decoder undoes its operand bytes. The one check is the
packet's, which a well-formed instruction meets. -/
theorem decodeOfEncodeIsTheInstruction : Obligations.DecodeOfEncodeIsTheInstruction := by
  intro i hi
  rw [decode_encode_eq_operandDecoder]
  cases i with
  | pack cmd => exact decodeCommand_bytesOfCommand .pack cmd
  | encode cmd => exact decodeCommand_bytesOfCommand .encode cmd
  | decode rx => exact decodeSequence_bytesOfDurations rx
  | wireByteFrame b => exact decodeByteFrame_byteFramePattern b
  | wirePacket p => exact decodePacket_toList hi
  | wireStateByte sb => exact decodeStateByte_byteOfStateByte sb
  | _ => rfl

/-! ### What the decoder accepts -/

theorem decodeBare_eq_ok {i j : Instr} {bs : List Byte} : decodeBare i bs = .ok j ↔ bs = [] ∧ i = j := by
  cases bs <;> simp [decodeBare]

theorem decodeCommand_ok {mk : Command → Instr} {bs : List Byte} {i : Instr} (h : decodeCommand mk bs = .ok i) :
    ∃ c, i = mk c := by
  unfold decodeCommand at h
  split at h
  · simp only at h
    split at h
    · exact ⟨_, (Except.ok.inj h).symm⟩
    · cases h
  · cases h

theorem decodeSequence_ok {bs : List Byte} {i : Instr} (h : decodeSequence bs = .ok i) : ∃ rx, i = .decode rx := by
  unfold decodeSequence at h
  split at h
  · exact ⟨_, (Except.ok.inj h).symm⟩
  · cases h

theorem decodeBitCell_ok {bs : List Byte} {i : Instr} (h : decodeBitCell bs = .ok i) :
    i = .wireBitCellMark ∨ i = .wireBitCellSpace := by
  unfold decodeBitCell at h
  split at h
  · split_ifs at h
    · exact .inl (Except.ok.inj h).symm
    · exact .inr (Except.ok.inj h).symm
  · cases h

theorem decodeByteFrame_ok {bs : List Byte} {i : Instr} (h : decodeByteFrame bs = .ok i) : ∃ b, i = .wireByteFrame b := by
  unfold decodeByteFrame at h
  split at h
  · simp only at h
    split at h
    · exact ⟨_, (Except.ok.inj h).symm⟩
    · cases h
  · cases h

theorem decodeEndMarker_ok {bs : List Byte} {i : Instr} (h : decodeEndMarker bs = .ok i) : i = .wireEndMarker := by
  unfold decodeEndMarker at h
  split at h
  · split_ifs at h
    exact (Except.ok.inj h).symm
  · cases h

/-- The one decoder with a check that well-formedness asks for (R66). -/
theorem decodePacket_ok {bs : List Byte} {i : Instr} (h : decodePacket bs = .ok i) :
    ∃ p, i = .wirePacket p ∧ packetPatternFits p = true := by
  unfold decodePacket at h
  split at h
  · split_ifs at h with hp
    exact ⟨_, (Except.ok.inj h).symm, hp⟩
  · cases h

theorem decodeStateByte_ok {bs : List Byte} {i : Instr} (h : decodeStateByte bs = .ok i) : ∃ sb, i = .wireStateByte sb := by
  unfold decodeStateByte at h
  split at h
  · exact ⟨_, (Except.ok.inj h).symm⟩
  · cases h

/-- What a row that is no operation decodes to is well formed. -/
theorem wellFormed_of_decodeFormat {row : Nat} {operands : List Byte} {i : Instr}
    (h : decodeFormat row operands = .ok i) : i.wellFormed = true := by
  unfold decodeFormat at h
  split at h
  · obtain rfl | rfl := decodeBitCell_ok h <;> rfl
  · obtain ⟨b, rfl⟩ := decodeByteFrame_ok h; rfl
  · obtain rfl := decodeEndMarker_ok h; rfl
  · obtain ⟨p, rfl, hp⟩ := decodePacket_ok h; exact hp
  · obtain ⟨sb, rfl⟩ := decodeStateByte_ok h; rfl
  · obtain ⟨-, rfl⟩ := decodeBare_eq_ok.mp h; rfl
  · obtain ⟨-, rfl⟩ := decodeBare_eq_ok.mp h; rfl
  · cases h

/-- What R80's operations decode to is well formed: every Command is (R21), and every receive sequence (R12). -/
theorem wellFormed_of_decodeOperation {uop row : Nat} {operands : List Byte} {i : Instr}
    (h : decodeOperation uop row operands = .ok i) : i.wellFormed = true := by
  unfold decodeOperation at h
  split at h
  case h_1 => exact wellFormed_of_decodeFormat h
  case h_7 | h_10 => obtain ⟨c, rfl⟩ := decodeCommand_ok h; rfl
  case h_9 => obtain ⟨rx, rfl⟩ := decodeSequence_ok h; rfl
  case h_11 => cases h
  all_goals obtain ⟨-, rfl⟩ := decodeBare_eq_ok.mp h; rfl

/-- Settles O2: only a packet's bytes are checked, and the packet decoder checks them. -/
theorem decodedInstructionsAreWellFormed : Obligations.DecodedInstructionsAreWellFormed := by
  intro bytes i h
  cases bytes with
  | nil => cases h
  | cons b operands => exact wellFormed_of_decodeOperation h

/-! ### The operation codes -/

/-- Bits 3:0 of the first byte select the operation (R80's mask 0xF). -/
theorem decode_of_uop {b : Byte} {uop : Nat} (h : b.toNat % 16 = uop) (operands : List Byte) :
    decode (b :: operands) = decodeOperation uop (b.toNat / 16) operands := by
  rw [decode, uopOf, h]

/-- Settles O3: a code from 1 to 9 in bits 3:0 selects its row of R80's table, whatever bits 7:4 are. -/
theorem operationCodesSelectTheOperations : Obligations.OperationCodesSelectTheOperations := by
  intro b
  refine ⟨?_, ?_, ?_, ?_, ?_, ?_, ?_, ?_, ?_⟩ <;> (intro h; rw [decode_of_uop h]; rfl)

/-- Settles O4, word by word. -/
theorem writtenOutWordsDecode : Obligations.WrittenOutWordsDecode := by
  refine ⟨?_, ?_, ?_, ?_, ?_⟩ <;> decide

/-- A code above R80's nine is no operation (R70). -/
theorem decodeOperation_of_ten_le {uop : Nat} (h : 10 ≤ uop) (row : Nat) (operands : List Byte) :
    decodeOperation uop row operands = .error (.unassignedUop uop) := by
  obtain ⟨n, rfl⟩ := Nat.exists_eq_add_of_le' h
  rfl

/-- Code 0 with none of the model's seven rows in bits 7:4 (log entry 2). -/
theorem decodeFormat_of_no_row {row : Nat} (h : row = 0 ∨ 8 ≤ row) (operands : List Byte) :
    decodeFormat row operands = .error (.unassignedUop 0) := by
  obtain rfl | h := h
  · rfl
  · obtain ⟨n, rfl⟩ := Nat.exists_eq_add_of_le' h
    rfl

/-- The decoder names the code of a request that is no operation (R70, R80). -/
theorem decode_of_unassigned {b : Byte}
    (h : 10 ≤ b.toNat % 16 ∨ (b.toNat % 16 = 0 ∧ (b.toNat < 16 ∨ 128 ≤ b.toNat))) (operands : List Byte) :
    decode (b :: operands) = .error (.unassignedUop (b.toNat % 16)) := by
  rw [decode_of_uop rfl]
  obtain h | ⟨h, hrow⟩ := h
  · exact decodeOperation_of_ten_le h _ _
  · rw [h]
    exact decodeFormat_of_no_row (by omega) operands

namespace Machine

/-! ### Requests that stop the step -/

/-- Bytes that name no instruction stop the step, whoever made the request. -/
theorem step_of_undecodable {s : State} {bytes : List Byte} {rest : List Request} {why : Reject}
    (h : s.requests = .host bytes :: rest ∨ s.requests = .component bytes :: rest) (hd : decode bytes = .error why) :
    step s = stopOf why := by
  obtain h | h := h <;> rw [step, fetchRequest, h] <;> simp only [hd]

/-- Settles O5: the decoder rejects the code by name, and the step faults with it. -/
theorem unassignedCodesAreNoOperations : Obligations.UnassignedCodesAreNoOperations :=
  fun _ _ operands _ hr hb => step_of_undecodable hr (decode_of_unassigned hb operands)

/-- The host's request of what it may not request is turned away by name (log entry 22). -/
theorem step_of_host_refused {s : State} {bytes : List Byte} {rest : List Request} {i : Instr}
    (h : s.requests = .host bytes :: rest) (hi : decode bytes = .ok i) (hm : hostMay i = false) :
    step s = .refused (.notForHost i) := by
  rw [step, fetchRequest, h]
  simp [hi, hm]

/-- What the host may not request is the seven internal operations (R81, R249). -/
theorem hostMay_eq_false_iff {i : Instr} : hostMay i = false ↔
    i = .rdReset ∨ i = .nextBit ∨ i = .frame ∨ i = .validate ∨ i = .unpack ∨ (∃ c, i = .pack c) ∨ i = .write := by
  cases i <;> simp [hostMay]

/-- No instruction's meaning stops the machine. -/
theorem exec_completes (i : Instr) (s : State) : ∃ t : State, exec i s = .next t := by
  by_cases hi : ownerOf i = .enc
  · obtain ⟨f, hf⟩ := exec_of_owner_enc hi
    exact ⟨_, hf s⟩
  · obtain ⟨t, ht, -⟩ := exec_of_owner_ne_enc hi s
    exact ⟨t, ht⟩

/-- Settles O7: the seven are exactly what `step` turns away from the host, and every meaning completes. -/
theorem theHostCannotCallTheInternalOperations : Obligations.TheHostCannotCallTheInternalOperations := by
  refine fun s bytes rest i hr hi => ⟨fun hin => step_of_host_refused hr hi (hostMay_eq_false_iff.mpr hin),
    fun h₁ h₂ h₃ h₄ h₅ h₆ h₇ => ?_⟩
  have hm : hostMay i = true := by
    rw [← Bool.not_eq_false, hostMay_eq_false_iff]
    simp [h₁, h₂, h₃, h₄, h₅, h₆, h₇]
  rw [step_of_host hr hi hm]
  exact exec_completes i _

/-! ### The arrivals on the wire: one equation per row, for every state -/

section Arrivals

variable (s : State)

@[simp] theorem exec_wireBitCellMark : exec .wireBitCellMark s = .next (s.deliver [cellEntry false]) := rfl

@[simp] theorem exec_wireBitCellSpace : exec .wireBitCellSpace s = .next (s.deliver [cellEntry true]) := rfl

@[simp] theorem exec_wireByteFrame (b : Byte) : exec (.wireByteFrame b) s = .next (s.deliver (byteEntries b)) := rfl

@[simp] theorem exec_wireEndMarker : exec .wireEndMarker s = .next (s.deliver [endEntry]) := rfl

@[simp] theorem exec_wirePacket (p : Packet) : exec (.wirePacket p) s = .next (s.deliver (frameEntries p)) := rfl

@[simp] theorem exec_wireStateByte (sb : StateByte) :
    exec (.wireStateByte sb) s = .next (s.deliver (byteEntries (byteOfStateByte sb))) := rfl

end Arrivals

/-- A cell as written, just arrived where the cursor waits, is read as its bit (R61, R93). -/
theorem nextBit_at_arrived_cell (rx : List Duration) (b : Bool) :
    nextBit (rx ++ [cellEntry b]) ⟨rx.length, 0⟩ = (.bit b, ⟨rx.length, 800⟩) := by
  have hread : memRead (rx ++ [cellEntry b]) rx.length = some (cellEntry b) := by simp [memRead]
  have hlong : 534 ≤ remainingLength (cellEntry b) 0 := by cases b <;> decide
  rw [nextBit_of_bit (c := ⟨rx.length, 0⟩) hread hlong, bitOfEntry_cellEntry]

/-- NEXT_BIT on a cell that just arrived where the cursor waits hands back the cell's bit. -/
theorem exec_nextBit_of_arrived_cell {s : State} (hcur : s.dec.cur = ⟨s.rx.length, 0⟩) (b : Bool) :
    ∃ u : State, exec .nextBit (s.deliver [cellEntry b]) = .next u ∧ u.dec.returned = .reader (.bit b) :=
  ⟨_, exec_nextBit _, by simp [hcur, nextBit_at_arrived_cell]⟩

/-- Settles O52: each arrival is one clean cell, and the reader gives the bit of its sign. -/
theorem bitCellsArriveAsTheirBits : Obligations.BitCellsArriveAsTheirBits := by
  refine fun s => ⟨⟨_, exec_wireBitCellMark s, cellEntry_toInt false⟩, ⟨_, exec_wireBitCellSpace s, cellEntry_toInt true⟩,
    fun t hcur => ⟨fun h => ?_, fun h => ?_⟩⟩
  · cases (exec_wireBitCellMark s).symm.trans h
    exact exec_nextBit_of_arrived_cell hcur false
  · cases (exec_wireBitCellSpace s).symm.trans h
    exact exec_nextBit_of_arrived_cell hcur true

/-- A byte frame's ten entries in microseconds: start mark, eight cells, stop space (R64). -/
theorem toInt_byteEntries (b : Byte) : (byteEntries b).map BitVec.toInt =
    800 :: (dataBitsOf b).map (fun bit => if bit = true then -800 else 800) ++ [-1600] := by
  simp [byteEntries, markOf_one_toInt, stopEntry_toInt, cellEntry_toInt, Function.comp_def]

/-- A state byte's data bits in wire order, bit 0 first (R45, R67). -/
theorem dataBitsOf_byteOfStateByte (sb : StateByte) : dataBitsOf (byteOfStateByte sb) =
    [sb.fanOn, sb.special, sb.fanExhaust, sb.coverOpen, sb.autoMode, sb.warn, sb.reserved.getLsbD 0,
      sb.reserved.getLsbD 1] := by
  obtain ⟨h₀, h₁, h₂, h₃, h₄, h₅, h₆, h₇⟩ := byteOfStateByte_bits sb
  rw [dataBitsOf_eq, h₀, h₁, h₂, h₃, h₄, h₅, h₆, h₇]

/-- Settles O53: the state byte is a byte frame of its own byte, whose bits are its fields. -/
theorem framesArriveAsWritten : Obligations.FramesArriveAsWritten := by
  refine fun s => ⟨fun b => ⟨_, exec_wireByteFrame s b, toInt_byteEntries b⟩,
    fun sb => ⟨_, exec_wireStateByte s sb, ?_⟩, _, exec_wireEndMarker s, endEntry_toInt⟩
  rw [toInt_byteEntries, dataBitsOf_byteOfStateByte]

/-- FRAME from the start of a packet as written hands the packet back (R122). -/
theorem exec_frame_of_packetEntries {s : State} {p : Packet} (hrx : s.rx = packetEntries p) (hcur : s.dec.cur = ⟨0, 0⟩) :
    ∃ f : State, exec .frame s = .next f ∧ f.dec.returned = .done ∧ f.dec.dpkt = p ∧ f.dec.cur = ⟨160, 800⟩ := by
  have hreads : Reads s.rx s.dec.cur (packetBits p) ⟨160, 800⟩ := by rw [hrx, hcur]; exact reads_packetEntries p
  refine ⟨_, exec_frame s, ?_⟩
  rw [runFrame_of_reads s.freeCount hreads]
  exact ⟨rfl, rfl, rfl⟩

/-- Settles O54: the arriving entries and the end marker are what WRITE appends, and FRAME undoes it. -/
theorem packetArrivesAsWriteEmitsIt : Obligations.PacketArrivesAsWriteEmitsIt := by
  refine fun p s => ⟨_, exec_wirePacket s p, length_frameEntries p, fun u w hp h => ?_, fun a b hrx hcur ha hb => ?_⟩
  · cases (exec_write u).symm.trans h
    have hend : endEntry = BitVec.ofInt 32 (-6400) := rfl
    simp [Enc.write_eq, hp, packetEntries, hend]
  · cases (exec_wirePacket s p).symm.trans ha
    cases (exec_wireEndMarker _).symm.trans hb
    have harrived : ((s.deliver (frameEntries p)).deliver [endEntry]).rx = packetEntries p := by simp [hrx, packetEntries]
    obtain ⟨f, hf, hret, hdpkt, -⟩ := exec_frame_of_packetEntries harrived hcur
    exact ⟨f, hf, hret, hdpkt⟩

end Machine
end Sys2Proof
end

section
/-! SUPPORT. The statements about the reader (40_bit_reader.md): NEXT_BIT's branches, the end of the sequence, what one
entry yields, the signals, and the short entries. -/

namespace Sys2Proof
namespace Machine

/-! ### NEXT_BIT as an operation -/

/-- NEXT_BIT moves the cursor and hands the outcome back; the record is written out as the statements have it. -/
theorem exec_nextBit_of_eq {s : State} {o : ReaderOutcome} {c : Cursor} (h : nextBit s.rx s.dec.cur = (o, c)) :
    exec .nextBit s = .next { s with dec := { s.dec with cur := c, returned := .reader o } } := by
  rw [exec_nextBit, h]
  rfl

/-- NEXT_BIT looks at nothing but the sequence and the cursor, and nothing of the old cursor is left. -/
theorem exec_nextBit_atCursor_congr {s : State} {c c' : Cursor} (h : nextBit s.rx c = nextBit s.rx c') :
    exec .nextBit (s.atCursor c) = exec .nextBit (s.atCursor c') := by
  rw [exec_nextBit_of_eq (s := s.atCursor c) h, exec_nextBit_of_eq (s := s.atCursor c') rfl]
  rfl

/-- The remainder of R97, in the terms of the statements. -/
theorem remainingLength_eq (d : Duration) (used : Nat) : remainingLength d used = (d.toInt.natAbs : Int) - used := rfl

/-- An entry that is long enough for a bit is not zero (R94). -/
theorem toInt_ne_zero_of_bit {d : Duration} {used : Nat} (h : 534 ≤ remainingLength d used) : d.toInt ≠ 0 := by
  intro h₀
  rw [remainingLength_eq, h₀] at h
  omega

/-- The bit of an entry that is not zero: 1 for a space (R93). -/
theorem bitOfEntry_eq_decide {d : Duration} (h : d.toInt ≠ 0) : bitOfEntry d = decide (d.toInt < 0) := by
  rw [bitOfEntry]
  rcases lt_or_gt_of_ne h with hneg | hpos
  · rw [if_neg hneg.le.not_gt, decide_eq_true hneg]
  · rw [if_pos hpos, decide_eq_false hpos.le.not_gt]

/-- The bit branch, with the bit as the sign of the whole entry (R94). -/
theorem nextBit_eq_sign {rx : List Duration} {c : Cursor} {d : Duration} (hd : memRead rx c.idx = some d)
    (hr : 534 ≤ remainingLength d c.used) :
    nextBit rx c = (.bit (decide (d.toInt < 0)), ⟨c.idx, c.used + 800⟩) := by
  rw [nextBit_of_bit hd hr, bitOfEntry_eq_decide (toInt_ne_zero_of_bit hr)]

/-! ### RD_RESET and NEXT_BIT's branches -/

/-- Settles O18: the fresh cursor is (0, 0). -/
theorem rdResetZeroesTheCursor : Obligations.RdResetZeroesTheCursor :=
  exec_rdReset

/-- Settles O19: over two thirds of a period is 534 or more, the bit branch. -/
theorem nextBitTakesOneBitPeriod : Obligations.NextBitTakesOneBitPeriod := by
  intro s d hd hr
  have hlong : 534 ≤ remainingLength d s.dec.cur.used := by rw [remainingLength_eq]; omega
  exact ⟨hlong, toInt_ne_zero_of_bit hlong, exec_nextBit_of_eq (nextBit_eq_sign hd hlong)⟩

/-- Settles O20: the malformed branch. -/
theorem nextBitReportsAMalformedRemainder : Obligations.NextBitReportsAMalformedRemainder :=
  fun _ _ hd hlo hhi => exec_nextBit_of_eq (nextBit_of_malformed hd hlo hhi)

/-- Settles O21: the advance branch. -/
theorem nextBitAdvancesPastAnExhaustedEntry : Obligations.NextBitAdvancesPastAnExhaustedEntry :=
  fun s _ hd hr => exec_nextBit_atCursor_congr (c := s.dec.cur) (nextBit_of_exhausted hd hr)

/-- NEXT_BIT never moves the cursor back (R13). -/
theorem idx_le_nextBit_idx (rx : List Duration) (c : Cursor) : c.idx ≤ (nextBit rx c).2.idx := by
  obtain ⟨c₀, hle, -, ⟨-, hn⟩ | ⟨_, -, -, hn⟩ | ⟨-, -, -, -, hn⟩⟩ := nextBit_cases rx c <;> rw [hn] <;> exact hle

/-- The four outcomes of R92. -/
theorem ReaderOutcome.eq_one_of_four (o : ReaderOutcome) :
    o = .bit false ∨ o = .bit true ∨ o = .endOfData ∨ o = .malformedBit := by
  cases o with
  | bit b => cases b <;> simp
  | endOfData => simp
  | malformedBit => simp

/-- Settles O23: the outcome and the cursor are those of the reader's loop. -/
theorem nextBitCompletesAndOnlyMovesTheCursor : Obligations.NextBitCompletesAndOnlyMovesTheCursor :=
  fun s => ⟨_, _, exec_nextBit_of_eq rfl, ReaderOutcome.eq_one_of_four _, idx_le_nextBit_idx s.rx s.dec.cur⟩

/-! ### The signals -/

/-- `EndOfData` is met where no entry is left (R98). -/
theorem length_le_of_endOfData {rx : List Duration} {c : Cursor} (h : (nextBit rx c).1 = .endOfData) :
    rx.length ≤ (nextBit rx c).2.idx := by
  obtain ⟨c₀, -, -, ⟨hend, hn⟩ | ⟨_, -, -, hn⟩ | ⟨-, -, -, -, hn⟩⟩ := nextBit_cases rx c
  · rw [hn]; exact hend
  · simp [hn] at h
  · simp [hn] at h

/-- A cursor in order that meets `EndOfData` stands at the end, with nothing consumed (R98). -/
theorem nextBit_cur_of_endOfData {rx : List Duration} {c : Cursor} (h : CursorOk rx c)
    (he : (nextBit rx c).1 = .endOfData) : (nextBit rx c).2 = ⟨rx.length, 0⟩ := by
  obtain ⟨hle, -, hused, -⟩ := h.nextBit
  have hidx : (nextBit rx c).2.idx = rx.length := hle.antisymm (length_le_of_endOfData he)
  rw [← hidx, ← hused hidx]

/-- Settles O22: NEXT_BIT keeps a cursor in order, and in order at the end it has consumed nothing. -/
theorem nextBitAtTheEndIsEndOfData : Obligations.NextBitAtTheEndIsEndOfData := by
  refine ⟨fun s hend => exec_nextBit_of_eq (nextBit_of_none hend), fun s t hok h hret => ?_⟩
  cases (exec_nextBit s).symm.trans h
  exact nextBit_cur_of_endOfData hok (by simpa using hret)

/-- Where a signal arose the same test gives it again (R100). -/
theorem nextBit_of_signal {rx : List Duration} {c : Cursor}
    (h : (nextBit rx c).1 = .endOfData ∨ (nextBit rx c).1 = .malformedBit) :
    nextBit rx (nextBit rx c).2 = nextBit rx c := by
  obtain ⟨c₀, -, -, ⟨hend, hn⟩ | ⟨d, -, -, hn⟩ | ⟨d, hd, hlo, hhi, hn⟩⟩ := nextBit_cases rx c
  · rw [hn, nextBit_of_none hend]
  · simp [hn] at h
  · rw [hn, nextBit_of_malformed hd hlo hhi]

/-- Settles O25: the loop gives the same again, so the state is written as it stands. -/
theorem readerSignalsRepeat : Obligations.ReaderSignalsRepeat := by
  intro s t h hret
  cases (exec_nextBit s).symm.trans h
  exact exec_nextBit_of_eq (nextBit_of_signal (by simpa using hret))

/-! ### What one entry yields -/

/-- Settles O24: before each of the first `n` calls at least 534 microseconds remain, and after them `r`. -/
theorem anEntryYieldsItsCells : Obligations.AnEntryYieldsItsCells := by
  rintro s i d n r hd hn rfl
  refine ⟨by omega, fun k hk => ?_, fun hr => ?_, fun hr => ?_⟩
  · have hlong : 534 ≤ remainingLength d (800 * k) := by rw [remainingLength_eq]; omega
    exact exec_nextBit_of_eq (s := s.atCursor ⟨i, 800 * k⟩) (nextBit_eq_sign hd hlong)
  · have hshort : remainingLength d (800 * n) ≤ 266 := by rw [remainingLength_eq]; omega
    exact exec_nextBit_atCursor_congr (nextBit_of_exhausted (c := ⟨i, 800 * n⟩) hd hshort)
  · have hlo : 267 ≤ remainingLength d (800 * n) := by rw [remainingLength_eq]; omega
    have hhi : remainingLength d (800 * n) ≤ 533 := by rw [remainingLength_eq]; omega
    exact exec_nextBit_of_eq (s := s.atCursor ⟨i, 800 * n⟩) (nextBit_of_malformed hd hlo hhi)

/-! ### Sequences read in step -/

/-- Cursors that `R` relates meet the same outcome, and where it is a bit they stay related: the hypothesis of
`scan_congr` and `reads_congr`. -/
def InStep (rx rx' : List Duration) (R : Cursor → Cursor → Prop) : Prop :=
  ∀ c c', R c c' → (nextBit rx c).1 = (nextBit rx' c').1 ∧
    ∀ b, (nextBit rx c).1 = .bit b → R (nextBit rx c).2 (nextBit rx' c').2

/-- DECODE gives two sequences that are read in step the same verdict: FRAME fails on both with the same cause, or reads
the same packet from both. -/
theorem runDecode_verdict_of_inStep {rx rx' : List Duration} {R : Cursor → Cursor → Prop} (hstep : InStep rx rx' R)
    (hstart : R freshCursor freshCursor) (n n' : Nat) (d d' : Dec) :
    (runDecode rx n d).verdict = (runDecode rx' n' d').verdict := by
  rcases runFrame_cases rx n (d.setCur freshCursor) with ⟨p, c, -, hr, hf⟩ | ⟨cause, c, e, hs, hf, -, -⟩
  · obtain ⟨c', hr'⟩ := (reads_congr R hstep (packetBits p) hstart).mp ⟨c, hr⟩
    have hf' := runFrame_of_reads (d := d'.setCur freshCursor) n' hr'
    rw [runDecode, runDecode, hf, hf']
    simp only [Dec.forgetFramer_dpkt, Dec.setDpkt_dpkt]
    cases validatePacket p <;> rfl
  · have hcause : (scan rx' packetPattern freshCursor).1 = some cause :=
      (scan_congr R hstep packetPattern hstart).symm.trans (congrArg Prod.fst hs)
    obtain ⟨e', hf', -, -⟩ := runFrame_of_scan_some (n := n') (d := d'.setCur freshCursor) (Prod.ext hcause rfl)
    rw [runDecode, runDecode, hf, hf']
    rfl

/-! ### Short entries -/

/-- The cursor's place after `len` entries have been put in before entry `start`. -/
def Cursor.shiftFrom (start len : Nat) (c : Cursor) : Cursor :=
  if c.idx < start then c else ⟨c.idx + len, c.used⟩

theorem Cursor.shiftFrom_of_lt {start len : Nat} {c : Cursor} (h : c.idx < start) : c.shiftFrom start len = c :=
  if_pos h

theorem Cursor.shiftFrom_of_le {start len : Nat} {c : Cursor} (h : start ≤ c.idx) :
    c.shiftFrom start len = ⟨c.idx + len, c.used⟩ :=
  if_neg h.not_gt

@[simp] theorem Cursor.shiftFrom_used (start len : Nat) (c : Cursor) : (c.shiftFrom start len).used = c.used := by
  unfold Cursor.shiftFrom; split <;> rfl

/-- Within its entry a cursor is shifted as the entry is. -/
theorem Cursor.shiftFrom_take (start len n : Nat) (c : Cursor) :
    (⟨c.idx, c.used + n⟩ : Cursor).shiftFrom start len = ⟨(c.shiftFrom start len).idx, c.used + n⟩ := by
  unfold Cursor.shiftFrom; split <;> rfl

/-- At its shifted place a cursor finds the entry it stood at. -/
theorem memRead_shiftFrom (before noise after : List Duration) (c : Cursor) :
    memRead (before ++ noise ++ after) (c.shiftFrom before.length noise.length).idx = memRead (before ++ after) c.idx := by
  rcases lt_or_ge c.idx before.length with h | h
  · rw [Cursor.shiftFrom_of_lt h, memRead, memRead, List.append_assoc, List.getElem?_append_left h,
      List.getElem?_append_left h]
  · rw [Cursor.shiftFrom_of_le h, memRead, memRead, List.getElem?_append_right h,
      List.getElem?_append_right (by simpa using h), List.length_append, Nat.add_sub_add_right]

/-- NEXT_BIT steps over a block of short entries (R101). -/
theorem nextBit_skips_short (before noise after : List Duration) (h : ∀ d ∈ noise, d.toInt.natAbs ≤ 266) :
    nextBit (before ++ noise ++ after) ⟨before.length, 0⟩ =
      nextBit (before ++ noise ++ after) ⟨before.length + noise.length, 0⟩ := by
  induction noise generalizing before with
  | nil => rfl
  | cons d noise ih =>
    obtain ⟨hd, hnoise⟩ := List.forall_mem_cons.mp h
    have hread : memRead (before ++ d :: noise ++ after) before.length = some d := by simp [memRead]
    have hshort : remainingLength d 0 ≤ 266 := by rw [remainingLength_eq]; omega
    have hrest := ih (before ++ [d]) hnoise
    rw [nextBit_of_exhausted (c := ⟨before.length, 0⟩) hread hshort]
    simpa [Nat.add_assoc, Nat.add_comm 1] using hrest

/-- After an entry the reader goes on alike in both sequences: where the block begins it steps over it. -/
theorem nextBit_shiftFrom_start {before noise after : List Duration} (h : ∀ d ∈ noise, d.toInt.natAbs ≤ 266) {i : Nat}
    (hi : i ≤ before.length) : nextBit (before ++ noise ++ after) ⟨i, 0⟩ =
      nextBit (before ++ noise ++ after) ((⟨i, 0⟩ : Cursor).shiftFrom before.length noise.length) := by
  rcases hi.lt_or_eq with hlt | rfl
  · rw [Cursor.shiftFrom_of_lt hlt]
  · rw [Cursor.shiftFrom_of_le (c := ⟨before.length, 0⟩) le_rfl, nextBit_skips_short before noise after h]

/-- NEXT_BIT at a shifted cursor does what it did without the block, and leaves the shifted cursor (R101). -/
theorem nextBit_shiftFrom (before noise after : List Duration) (h : ∀ d ∈ noise, d.toInt.natAbs ≤ 266) (c : Cursor) :
    nextBit (before ++ noise ++ after) (c.shiftFrom before.length noise.length) =
      ((nextBit (before ++ after) c).1, (nextBit (before ++ after) c).2.shiftFrom before.length noise.length) := by
  have hread := memRead_shiftFrom before noise after
  induction c using nextBit_induct (rx := before ++ after) with
  | hEnd c hc =>
    rw [nextBit_of_none hc, nextBit_of_none (memRead_eq_none.mp ((hread c).trans (memRead_eq_none.mpr hc)))]
  | hBit c d hd hr =>
    rw [nextBit_of_bit hd hr, nextBit_of_bit ((hread c).trans hd) (by simpa using hr), Cursor.shiftFrom_take,
      Cursor.shiftFrom_used]
  | hMal c d hd hlo hhi =>
    rw [nextBit_of_malformed hd hlo hhi,
      nextBit_of_malformed ((hread c).trans hd) (by simpa using hlo) (by simpa using hhi)]
  | hExh c d hd hr ih =>
    rw [nextBit_of_exhausted hd hr, nextBit_of_exhausted ((hread c).trans hd) (by simpa using hr), ← ih]
    rcases lt_or_ge c.idx before.length with hlt | hge
    · rw [Cursor.shiftFrom_of_lt hlt]
      exact nextBit_shiftFrom_start h hlt
    · rw [Cursor.shiftFrom_of_le hge, Cursor.shiftFrom_of_le (Nat.le_succ_of_le hge), Nat.add_right_comm]

/-- With and without the block the reader is at the same point: it goes on as from the shifted cursor. -/
def SamePoint (before noise after : List Duration) (c c' : Cursor) : Prop :=
  nextBit (before ++ noise ++ after) c =
    nextBit (before ++ noise ++ after) (c'.shiftFrom before.length noise.length)

theorem inStep_samePoint {before noise after : List Duration} (h : ∀ d ∈ noise, d.toInt.natAbs ≤ 266) :
    InStep (before ++ noise ++ after) (before ++ after) (SamePoint before noise after) := by
  intro c c' hc
  rw [SamePoint, nextBit_shiftFrom before noise after h] at hc
  rw [hc]
  exact ⟨rfl, fun _ _ => rfl⟩

/-- Settles O26: the two sequences are read in step from their starts. -/
theorem shortEntriesNeverMatter : Obligations.ShortEntriesNeverMatter := by
  intro before noise after h
  have hstep := inStep_samePoint (before := before) (after := after) h
  have hstart : SamePoint before noise after freshCursor freshCursor := nextBit_shiftFrom_start h (Nat.zero_le _)
  exact ⟨fun bits => reads_congr _ hstep bits hstart, fun s => ⟨_, _, exec_decode s _, exec_decode s _,
    runDecode_verdict_of_inStep hstep hstart s.freeCount s.freeCount s.dec s.dec⟩⟩

end Machine
end Sys2Proof
end

section
/-! SUPPORT. The statements about the framer (41_framer.md): FRAME on a packet that is there, the first failing read, and what
stands behind the last entry read. -/

namespace Sys2Proof
namespace Machine

/-! ### FRAME and DECODE by the scan of the packet's cells -/

/-- A part of FRAME writes no result. -/
theorem Untouched.verdict_eq {d d' : Dec} (h : Untouched d d') : d'.verdict = d.verdict := by
  obtain ⟨hstatus, hcmd, hdiag, -⟩ := h
  rw [Dec.verdict, Dec.verdict, hstatus, hcmd, hdiag]

/-- FRAME requested on its own ends where the scan fails and hands the cause back (R112, R114 to R117). -/
theorem exec_frame_of_scan_some {s : State} {cause : Cause} {c : Cursor}
    (h : scan s.rx packetPattern s.dec.cur = (some cause, c)) :
    ∃ t : State, exec .frame s = .next t ∧ t.dec.returned = .raised cause ∧ t.dec.cur = c ∧
      t.dec.verdict = s.dec.verdict ∧ t.enc = s.enc ∧ t.rx = s.rx ∧ t.requests = s.requests := by
  obtain ⟨d, hd, hc, hu⟩ := runFrame_of_scan_some (n := s.freeCount) h
  refine ⟨_, exec_frame s, ?_⟩
  rw [hd]
  exact ⟨rfl, hc, hu.verdict_eq, rfl, rfl, rfl⟩

/-- DECODE ends where the scan fails, with the cause's code and no values (R214). -/
theorem runDecode_of_scan_some {rx : List Duration} {cause : Cause} {c : Cursor}
    (h : scan rx packetPattern freshCursor = (some cause, c)) (n : Nat) (d : Dec) :
    (runDecode rx n d).verdict = (cause.status, none, none) ∧ (runDecode rx n d).cur = c := by
  obtain ⟨d', hd, hc, -⟩ := runFrame_of_scan_some (n := n) (d := d.setCur freshCursor) h
  rw [runDecode, hd]
  exact ⟨rfl, hc⟩

theorem decodesTo_of_scan_some {rx : List Duration} {cause : Cause} {c : Cursor}
    (h : scan rx packetPattern freshCursor = (some cause, c)) : DecodesTo rx (cause.status, none, none) := by
  intro s
  obtain ⟨hv, -⟩ := runDecode_of_scan_some h s.freeCount s.dec
  exact ⟨_, exec_decode s rx, hv⟩

/-- What DECODE reports of a packet it could frame: VALIDATE's cause, or the Command and the diagnostic bits (R191). -/
def packetVerdict (p : Packet) : Status × Option Command × Option (BitVec 3) :=
  match validatePacket p with
  | .ok g => (.ok, some (unpackPacket p), some g)
  | .error cause => (cause.status, none, none)

theorem runDecode_of_reads {rx : List Duration} {p : Packet} {c : Cursor} (h : Reads rx freshCursor (packetBits p) c)
    (n : Nat) (d : Dec) : (runDecode rx n d).verdict = packetVerdict p ∧ (runDecode rx n d).cur = c := by
  rw [runDecode, runFrame_of_reads (d := d.setCur freshCursor) n h, packetVerdict]
  simp only [Dec.forgetFramer_dpkt, Dec.setDpkt_dpkt]
  cases validatePacket p <;> exact ⟨rfl, rfl⟩

/-! ### The places of the packet's pattern -/

/-- A pattern has one place for each bit that fits it. -/
theorem Fits.length_eq {ws : List (Option Bool)} {bits : List Bool} (h : Fits ws bits) : ws.length = bits.length := by
  induction ws generalizing bits with
  | nil => cases bits with
    | nil => rfl
    | cons => exact h.elim
  | cons w ws ih => cases bits with
    | nil => exact h.elim
    | cons b bits => exact congrArg (· + 1) (ih h.2)

theorem Fits.take {ws : List (Option Bool)} {bits : List Bool} (h : Fits ws bits) (k : Nat) :
    Fits (ws.take k) (bits.take k) := by
  induction ws generalizing bits k with
  | nil => cases bits with
    | nil => simpa using h
    | cons => exact h.elim
  | cons w ws ih => cases bits with
    | nil => exact h.elim
    | cons b bits => cases k with
      | zero => trivial
      | succ k => exact ⟨h.1, ih h.2 k⟩

/-- A bit that fits is not wrong for its place. -/
theorem Fits.wrongAt_eq_false {ws : List (Option Bool)} {bits : List Bool} (h : Fits ws bits) {k : Nat} {w : Option Bool}
    {b : Bool} (hw : ws[k]? = some w) (hb : bits[k]? = some b) : wrongAt w b = false := by
  induction ws generalizing bits k with
  | nil => simp at hw
  | cons v ws ih => cases bits with
    | nil => exact h.elim
    | cons a bits => cases k with
      | zero =>
        obtain rfl : v = w := by simpa using hw
        obtain rfl : a = b := by simpa using hb
        exact h.1
      | succ k => exact ih h.2 (by simpa using hw) (by simpa using hb)

theorem wrongAt_some_eq_false {want b : Bool} : wrongAt (some want) b = false ↔ b = want := by
  cases want <;> cases b <;> decide

theorem wrongAt_some_eq_true {want b : Bool} : wrongAt (some want) b = true ↔ b ≠ want := by
  rw [← Bool.not_eq_false, not_congr wrongAt_some_eq_false]

theorem fits_packetBits (p : Packet) : Fits packetPattern (packetBits p) :=
  fits_packetPattern.mpr ⟨p, rfl⟩

theorem length_bytePatterns : (slotNumbers.flatMap fun _ => bytePattern).length = 176 := by
  rw [List.length_flatMap]
  rfl

theorem length_packetPattern : packetPattern.length = 177 := by
  rw [packetPattern, List.length_append, length_bytePatterns]
  rfl

theorem exists_place {k : Nat} (hk : k < 177) : ∃ w, packetPattern[k]? = some w :=
  ⟨_, List.getElem?_eq_getElem (length_packetPattern ▸ hk)⟩

/-- Place `11·i + j` of the pattern is place `j` of a byte frame's (R64, R65). -/
theorem getElem?_packetPattern {i j : Nat} (hi : i < 16) (hj : j < 11) : packetPattern[11 * i + j]? = bytePattern[j]? := by
  have hslot : slotNumbers[i]? = some slotNumbers[i] := List.getElem?_eq_getElem hi
  rw [packetPattern, List.getElem?_append_left (by rw [length_bytePatterns]; omega),
    getElem?_flatMap_uniform (fun _ => bytePattern) 11 (fun _ => rfl) slotNumbers i j hj, hslot, Option.bind_some]

theorem testedCell_iff {k : Nat} : testedCell k = true ↔ k = 176 ∨ k % 11 = 0 ∨ k % 11 = 9 ∨ k % 11 = 10 := by
  simp [testedCell, or_assoc]

/-- At a start bit, a stop bit and the end marker the pattern fixes the bit (R114, R115, R116). -/
theorem exists_fixed_place_of_testedCell {k : Nat} (hk : k < 177) (ht : testedCell k = true) :
    ∃ want, packetPattern[k]? = some (some want) := by
  rcases eq_or_ne k 176 with rfl | hne
  · exact ⟨true, rfl⟩
  · have hplace : packetPattern[k]? = bytePattern[k % 11]? := by
      rw [← getElem?_packetPattern (i := k / 11) (by omega) (Nat.mod_lt k (by decide)), Nat.div_add_mod]
    rw [hplace]
    rcases testedCell_iff.mp ht with h | h | h | h
    · exact absurd h hne
    · exact ⟨false, by rw [h]; rfl⟩
    · exact ⟨true, by rw [h]; rfl⟩
    · exact ⟨true, by rw [h]; rfl⟩

/-- The bit it fixes is the packet's own. -/
theorem packetPattern_of_testedCell {p : Packet} {k : Nat} {want : Bool} (ht : testedCell k = true)
    (hb : (packetBits p)[k]? = some want) : packetPattern[k]? = some (some want) := by
  obtain ⟨hk, -⟩ := List.getElem?_eq_some_iff.mp hb
  rw [← (fits_packetBits p).length_eq, length_packetPattern] at hk
  obtain ⟨fixed, hw⟩ := exists_fixed_place_of_testedCell hk ht
  rw [hw, wrongAt_some_eq_false.mp ((fits_packetBits p).wrongAt_eq_false hw hb)]

/-! ### The first failing read -/

/-- What one read at a place of the pattern fails with, by signal or by value, if it fails (R119). -/
def causeAt (w : Option Bool) : ReaderOutcome → Option Cause
  | .endOfData => some .endOfData
  | .malformedBit => some .malformedBit
  | .bit b => if wrongAt w b then some .framingViolation else none

/-- A scan stops at a read that fails, whatever places come after. -/
theorem scan_cons_of_causeAt {rx : List Duration} {w : Option Bool} {ws : List (Option Bool)} {c c' : Cursor}
    {o : ReaderOutcome} {cause : Cause} (hn : nextBit rx c = (o, c')) (ho : causeAt w o = some cause) :
    scan rx (w :: ws) c = (some cause, c') := by
  rw [scan, hn]
  cases o with
  | bit b =>
    rw [causeAt, Option.ite_none_right_eq_some] at ho
    obtain ⟨hw, hcause⟩ := ho
    rw [← hcause]
    exact if_pos hw
  | endOfData => cases ho; rfl
  | malformedBit => cases ho; rfl

/-- The packet's first `k` cells are there and the read at place `k` fails: the scan ends there (R119). -/
theorem scan_of_failing_read {rx : List Duration} {p : Packet} {k : Nat} {c₀ c c' : Cursor} {w : Option Bool}
    {o : ReaderOutcome} {cause : Cause} (hw : packetPattern[k]? = some w)
    (hr : Reads rx c₀ ((packetBits p).take k) c) (hn : nextBit rx c = (o, c')) (ho : causeAt w o = some cause) :
    scan rx packetPattern c₀ = (some cause, c') := by
  obtain ⟨hk, hget⟩ := List.getElem?_eq_some_iff.mp hw
  have hsplit : packetPattern = packetPattern.take k ++ w :: packetPattern.drop (k + 1) := by
    rw [← hget, List.cons_getElem_drop_succ, List.take_append_drop]
  rw [hsplit, scan_of_reads ((fits_packetBits p).take k) hr]
  exact scan_cons_of_causeAt hn ho

theorem scan_of_endOfData {rx : List Duration} {p : Packet} {k : Nat} {c₀ c c' : Cursor} (hk : k < 177)
    (hr : Reads rx c₀ ((packetBits p).take k) c) (hn : nextBit rx c = (.endOfData, c')) :
    scan rx packetPattern c₀ = (some .endOfData, c') := by
  obtain ⟨w, hw⟩ := exists_place hk
  exact scan_of_failing_read hw hr hn rfl

theorem scan_of_malformedBit {rx : List Duration} {p : Packet} {k : Nat} {c₀ c c' : Cursor} (hk : k < 177)
    (hr : Reads rx c₀ ((packetBits p).take k) c) (hn : nextBit rx c = (.malformedBit, c')) :
    scan rx packetPattern c₀ = (some .malformedBit, c') := by
  obtain ⟨w, hw⟩ := exists_place hk
  exact scan_of_failing_read hw hr hn rfl

theorem scan_of_wrong_bit {rx : List Duration} {p : Packet} {k : Nat} {c₀ c c' : Cursor} {want got : Bool}
    (ht : testedCell k = true) (hb : (packetBits p)[k]? = some want) (hr : Reads rx c₀ ((packetBits p).take k) c)
    (hn : nextBit rx c = (.bit got, c')) (hne : got ≠ want) :
    scan rx packetPattern c₀ = (some .framingViolation, c') :=
  scan_of_failing_read (packetPattern_of_testedCell ht hb) hr hn (if_pos (wrongAt_some_eq_true.mpr hne))

/-- Settles O28: FRAME's loops put the packet together from its cells. -/
theorem frameAssemblesThePacket : Obligations.FrameAssemblesThePacket := by
  intro s p c h
  refine ⟨_, exec_frame s, ?_⟩
  rw [runFrame_of_reads s.freeCount h]
  exact ⟨rfl, rfl, rfl, rfl, rfl, rfl, rfl⟩

/-- Settles O29: the signal ends the scan of the packet's cells, at any place of its pattern. -/
theorem frameKeepsTheReaderSignal : Obligations.FrameKeepsTheReaderSignal :=
  fun _ _ _ _ _ hk hr => ⟨fun hn => exec_frame_of_scan_some (scan_of_endOfData hk hr hn),
    fun hn => exec_frame_of_scan_some (scan_of_malformedBit hk hr hn)⟩

/-- Settles O30: at a tested cell the pattern fixes the packet's bit, so another bit ends the scan. -/
theorem frameRejectsAWrongFramingBit : Obligations.FrameRejectsAWrongFramingBit :=
  fun _ _ _ _ _ _ _ ht hb hr hn hne => exec_frame_of_scan_some (scan_of_wrong_bit ht hb hr hn hne)

/-- Settles O31: on an empty `TX` WRITE leaves the packet's entries alone, and the reader finds its cells in them. -/
theorem frameUndoesWrite : Obligations.FrameUndoesWrite := by
  intro s t u htx hwrite hrx hcur
  cases (exec_write s).symm.trans hwrite
  exact exec_frame_of_packetEntries (by simpa [Enc.write_eq, htx] using hrx) hcur

/-- Settles O43: DECODE ends where the scan from the start of the sequence fails. -/
theorem decodeReportsTheFirstFailingRead : Obligations.DecodeReportsTheFirstFailingRead :=
  fun _ _ _ _ _ hk hr => ⟨fun hn => decodesTo_of_scan_some (scan_of_endOfData hk hr hn),
    fun hn => decodesTo_of_scan_some (scan_of_malformedBit hk hr hn),
    fun _ _ hb hn hne ht => decodesTo_of_scan_some (scan_of_wrong_bit ht hb hr hn hne)⟩

/-! ### Appended entries -/

theorem memRead_append {rx : List Duration} {i : Nat} {d : Duration} (h : memRead rx i = some d) (extra : List Duration) :
    memRead (rx ++ extra) i = some d := by
  rw [memRead, List.getElem?_append_left (memRead_lt h)]
  exact h

/-- A NEXT_BIT that does not run out of entries does not look at entries behind them. -/
theorem nextBit_append {rx : List Duration} (extra : List Duration) {c : Cursor} (h : (nextBit rx c).1 ≠ .endOfData) :
    nextBit (rx ++ extra) c = nextBit rx c := by
  induction c using nextBit_induct (rx := rx) with
  | hEnd c hc => exact absurd (by rw [nextBit_of_none hc]) h
  | hBit c d hd hr => rw [nextBit_of_bit hd hr, nextBit_of_bit (memRead_append hd extra) hr]
  | hMal c d hd hlo hhi => rw [nextBit_of_malformed hd hlo hhi, nextBit_of_malformed (memRead_append hd extra) hlo hhi]
  | hExh c d hd hr ih =>
    rw [nextBit_of_exhausted hd hr] at h ⊢
    rw [nextBit_of_exhausted (memRead_append hd extra) hr, ih h]

/-- Bits that are there to be read stay there. -/
theorem Reads.append_entries {rx : List Duration} {bits : List Bool} {c c' : Cursor} (h : Reads rx c bits c')
    (extra : List Duration) : Reads (rx ++ extra) c bits c' := by
  induction bits generalizing c with
  | nil => exact h
  | cons b bits ih =>
    obtain ⟨c₁, hn, hrest⟩ := reads_cons.mp h
    have hn' : nextBit (rx ++ extra) c = nextBit rx c := nextBit_append extra (by simp [hn])
    exact reads_cons.mpr ⟨c₁, hn'.trans hn, ih hrest⟩

/-- A scan that does not run out of entries does not look at entries behind them (R118). -/
theorem scan_append_entries {rx : List Duration} (extra : List Duration) {ws : List (Option Bool)} {c : Cursor}
    (h : (scan rx ws c).1 ≠ some .endOfData) : scan (rx ++ extra) ws c = scan rx ws c := by
  induction ws generalizing c with
  | nil => rfl
  | cons w ws ih =>
    have hend : (nextBit rx c).1 ≠ .endOfData := fun he => h (by rw [scan_cons_of_causeAt (Prod.ext he rfl) rfl])
    rw [scan, scan, nextBit_append extra hend]
    rw [scan] at h
    rcases hn : nextBit rx c with ⟨b | _ | _, c'⟩
    · simp only [hn] at h ⊢
      split
      · rfl
      · next hw => exact ih (by simpa [hw] using h)
    · rfl
    · rfl

/-- A DECODE that does not end in `EndOfData` gives the same with entries appended (R118). -/
theorem runDecode_append_entries {rx : List Duration} {n : Nat} {d : Dec} (extra : List Duration)
    (h : (runDecode rx n d).status ≠ .endOfData) :
    (runDecode (rx ++ extra) n d).verdict = (runDecode rx n d).verdict ∧
      (runDecode (rx ++ extra) n d).cur = (runDecode rx n d).cur := by
  rcases runDecode_cases rx n d with ⟨cause, c, hs, hv, hc⟩ | ⟨p, c, -, hr, -⟩
  · have hstatus : (runDecode rx n d).status = cause.status := congrArg Prod.fst hv
    have hcause : cause ≠ .endOfData := fun he => h (by rw [hstatus, he]; rfl)
    have hs' : scan (rx ++ extra) packetPattern freshCursor = (some cause, c) :=
      (scan_append_entries extra (by simpa [hs] using hcause)).trans hs
    rw [hv, hc]
    exact runDecode_of_scan_some hs' n d
  · obtain ⟨hv, hc⟩ := runDecode_of_reads hr n d
    rw [hv, hc]
    exact runDecode_of_reads (hr.append_entries extra) n d

/-- Settles O45: FRAME fails at the same read, or reads the same packet. -/
theorem appendedEntriesAreNeverExamined : Obligations.AppendedEntriesAreNeverExamined := by
  intro rx extra s t h hne
  cases (exec_decode s rx).symm.trans h
  exact ⟨_, exec_decode s _, runDecode_append_entries extra hne⟩

end Machine
end Sys2Proof
end

section
/-! SUPPORT. The statements about the validator (42_validator.md): what VALIDATE leaves in each of its three cases, what the
checksum sees, and where an accepted packet and its re-pack differ. -/

namespace Sys2Proof
namespace Machine

/-! ### The diagnostic bits -/

/-- The bits of `DIAG` (R18, R134). -/
theorem diagOf_bits (p : Packet) : (diagOf p).getLsbD 0 = curB13 p ∧ (diagOf p).getLsbD 1 = curB14 p ∧
    (diagOf p).getLsbD 2 = curRsv p := by
  simp [diagOf]

theorem curB13_iff (p : Packet) : curB13 p = true ↔ p[13] ≠ 0xFF#8 := bne_iff_ne

theorem curB14_iff (p : Packet) : curB14 p = true ↔ p[14] ≠ 0x23#8 := bne_iff_ne

theorem curRsv_iff (p : Packet) : curRsv p = true ↔ p[10] &&& 0xC0#8 ≠ 0#8 := bne_iff_ne

/-- The mask of the reserved state bits is bits 7 and 6 (R67). -/
theorem reservedBits_ne_zero_iff (b : Byte) : b &&& 0xC0#8 ≠ 0#8 ↔ b.getLsbD 7 = true ∨ b.getLsbD 6 = true := by
  revert b
  decide

/-- `DIAG` is 000 only for a packet without a deviation (R134). -/
theorem exists_deviation_of_diagOf_ne_zero {p : Packet} (h : diagOf p ≠ 0#3) :
    p[10] &&& 0xC0#8 ≠ 0#8 ∨ p[13] ≠ 0xFF#8 ∨ p[14] ≠ 0x23#8 := by
  by_contra hc
  rw [← curRsv_iff, ← curB13_iff, ← curB14_iff] at hc
  simp only [not_or, Bool.not_eq_true] at hc
  obtain ⟨hr, h13, h14⟩ := hc
  exact h (by simp [diagOf, hr, h13, h14])

/-! ### VALIDATE requested on its own -/

/-- What VALIDATE hands back for its answer (log entry 9). -/
def handedBack : Except Cause (BitVec 3) → Returned
  | .ok _ => .done
  | .error c => .raised c

theorem Dec.validated_returned (d : Dec) : d.validated.returned = handedBack (validatePacket d.dpkt) := by
  unfold Dec.validated
  cases validatePacket d.dpkt <;> rfl

@[simp] theorem Dec.validated_dpkt (d : Dec) : d.validated.dpkt = d.dpkt := by
  unfold Dec.validated
  cases validatePacket d.dpkt <;> rfl

/-- VALIDATE succeeds: `DIAG` takes the bits and no other register changes (R132, R134). -/
theorem exec_validate_of_ok {s : State} {g : BitVec 3} (h : validatePacket s.dec.dpkt = .ok g) :
    exec .validate s = .next { s with dec := { s.dec with diag := some g, returned := .done } } := by
  rw [exec_validate, Dec.validated, h]
  rfl

/-- VALIDATE fails: `DIAG` loses its value and no other register changes (R132; log entry 11). -/
theorem exec_validate_of_error {s : State} {c : Cause} (h : validatePacket s.dec.dpkt = .error c) :
    exec .validate s = .next { s with dec := { s.dec with diag := none, returned := .raised c } } := by
  rw [exec_validate, Dec.validated, h]
  rfl

/-- What VALIDATE hands back depends on the packet alone. -/
theorem validatesTo_iff (p : Packet) (r : Returned) : ValidatesTo p r ↔ handedBack (validatePacket p) = r := by
  constructor
  · intro h
    obtain ⟨t, ht, hr⟩ := h (State.reset.setDec (Dec.reset.setDpkt p)) rfl
    cases (exec_validate _).symm.trans ht
    simpa [Dec.validated_returned] using hr
  · rintro h s rfl
    exact ⟨_, exec_validate s, (Dec.validated_returned s.dec).trans h⟩

theorem validatePacket_eq_preambleMismatch {p : Packet} (h : p.toList.take 10 ≠ Config.preamble.toList) :
    validatePacket p = .error .preambleMismatch := by
  rcases validatePacket_cases p with ⟨-, hv⟩ | ⟨hp, -⟩ | ⟨hp, -⟩
  · exact hv
  · exact absurd hp h
  · exact absurd hp h

theorem validatePacket_eq_checksumMismatch {p : Packet} (h : p.toList.take 10 = Config.preamble.toList)
    (hx : xor5 p ≠ p[15]) : validatePacket p = .error .checksumMismatch := by
  rcases validatePacket_cases p with ⟨hp, -⟩ | ⟨-, -, hv⟩ | ⟨-, he, -⟩
  · exact absurd h hp
  · exact hv
  · exact absurd he hx

/-- VALIDATE accepts exactly the packets with the preamble and a right checksum, and `DIAG` is theirs (R132, R134). -/
theorem validatePacket_eq_ok_iff {p : Packet} {g : BitVec 3} : validatePacket p = .ok g ↔
    p.toList.take 10 = Config.preamble.toList ∧ xor5 p = p[15] ∧ diagOf p = g := by
  rcases validatePacket_cases p with ⟨hp, hv⟩ | ⟨hp, hx, hv⟩ | ⟨hp, hx, hv⟩
  · simp [hp, hv]
  · simp [hx, hv]
  · simp [hp, hx, hv]

/-- Settles O32: the three cases of the validator, and the bits of `DIAG`. -/
theorem validateChecksPreambleThenChecksum : Obligations.ValidateChecksPreambleThenChecksum := by
  rintro s p rfl
  refine ⟨fun hp => exec_validate_of_error (validatePacket_eq_preambleMismatch hp),
    fun hp hx => exec_validate_of_error (validatePacket_eq_checksumMismatch hp hx),
    fun hp hx => ⟨diagOf s.dec.dpkt, exec_validate_of_ok (validatePacket_eq_ok_iff.mpr ⟨hp, hx, rfl⟩), ?_⟩⟩
  obtain ⟨h₀, h₁, h₂⟩ := diagOf_bits s.dec.dpkt
  rw [h₀, h₁, h₂]
  exact ⟨curB13_iff _, curB14_iff _, (curRsv_iff _).trans (reservedBits_ne_zero_iff _)⟩

/-! ### What the checksum sees -/

/-- The XOR of bytes 10 to 15: zero exactly when the checksum is right (R131). -/
def syndrome (p : Packet) : Byte :=
  xor5 p ^^^ p[15]

theorem syndrome_eq_zero_iff (p : Packet) : syndrome p = 0#8 ↔ xor5 p = p[15] :=
  BitVec.xor_eq_zero_iff

/-- Two syndromes differ by the XOR of the changes in bytes 10 to 15 (R137). -/
theorem syndrome_xor_syndrome (p q : Packet) : syndrome p ^^^ syndrome q =
    (p[10] ^^^ q[10]) ^^^ (p[11] ^^^ q[11]) ^^^ (p[12] ^^^ q[12]) ^^^ (p[13] ^^^ q[13]) ^^^ (p[14] ^^^ q[14])
      ^^^ (p[15] ^^^ q[15]) := by
  unfold syndrome xor5
  ac_rfl

/-- A change of one byte from 10 on changes the syndrome by just that change (R137). -/
theorem syndrome_xor_syndrome_set (p : Packet) {i : Fin 16} (hi : 10 ≤ i.val) (b : Byte) :
    syndrome p ^^^ syndrome (p.set i b) = p[i] ^^^ b := by
  obtain ⟨i, hlt⟩ := i
  rw [syndrome_xor_syndrome]
  interval_cases i <;> simp

/-- Bytes 0 to 9 are not touched by a change from byte 10 on. -/
theorem take_ten_set (p : Packet) {i : Fin 16} (hi : 10 ≤ i.val) (b : Byte) :
    (p.set i b).toList.take 10 = p.toList.take 10 := by
  rw [Vector.toList_set, List.take_set_of_le hi]

theorem validatesTo_done_iff (p : Packet) :
    ValidatesTo p .done ↔ p.toList.take 10 = Config.preamble.toList ∧ syndrome p = 0#8 := by
  rw [validatesTo_iff, syndrome_eq_zero_iff]
  rcases validatePacket_cases p with ⟨hp, hv⟩ | ⟨hp, hx, hv⟩ | ⟨hp, hx, hv⟩
  · simp [hp, hv, handedBack]
  · simp [hx, hv, handedBack]
  · simp [hp, hx, hv, handedBack]

theorem validatesTo_checksumMismatch {p : Packet} (h : p.toList.take 10 = Config.preamble.toList) (hx : syndrome p ≠ 0#8) :
    ValidatesTo p (.raised .checksumMismatch) := by
  rw [validatesTo_iff, validatePacket_eq_checksumMismatch h (mt (syndrome_eq_zero_iff p).mpr hx)]
  rfl

/-- Settles O33: an accepted packet's syndrome is zero, so another's is the XOR of the changes. -/
theorem checksumDetectsSingleByteChanges : Obligations.ChecksumDetectsSingleByteChanges := by
  intro p q hp hq
  obtain ⟨hpre, hzero⟩ := (validatesTo_done_iff p).mp hp
  refine ⟨?_, fun i b hi hb => ?_⟩
  · rw [← syndrome_xor_syndrome, hzero, BitVec.zero_xor, validatesTo_done_iff, hq]
    exact ⟨fun h => ⟨hpre, h⟩, And.right⟩
  · have hset : syndrome (p.set i b) = p[i] ^^^ b := by
      rw [← syndrome_xor_syndrome_set p hi b, hzero, BitVec.zero_xor]
    refine validatesTo_checksumMismatch ((take_ten_set p hi b).trans hpre) ?_
    rw [hset, Ne, BitVec.xor_eq_zero_iff]
    exact hb.symm

/-! ### Where an accepted packet and its re-pack differ -/

/-- The booleans of UNPACK's Command are bits 0 to 5 of byte 10 (R151). -/
theorem unpackPacket_bits (p : Packet) :
    (unpackPacket p).fanOn = p[10].getLsbD 0 ∧ (unpackPacket p).special = p[10].getLsbD 1 ∧
    (unpackPacket p).fanExhaust = p[10].getLsbD 2 ∧ (unpackPacket p).coverOpen = p[10].getLsbD 3 ∧
    (unpackPacket p).autoMode = p[10].getLsbD 4 ∧ (unpackPacket p).warn = p[10].getLsbD 5 :=
  ⟨stateBit_eq _ 0, stateBit_eq _ 1, stateBit_eq _ 2, stateBit_eq _ 3, stateBit_eq _ 4, stateBit_eq _ 5⟩

/-- UNPACK then PACK clears the reserved state bits and keeps the others (R151, R155). -/
theorem stateByteOf_unpackPacket (p : Packet) : stateByteOf (unpackPacket p) = p[10] &&& 0x3F#8 := by
  obtain ⟨h₀, h₁, h₂, h₃, h₄, h₅, h₆, h₇⟩ := stateByteOf_bits (unpackPacket p)
  obtain ⟨u₀, u₁, u₂, u₃, u₄, u₅⟩ := unpackPacket_bits p
  apply BitVec.eq_of_getLsbD_eq
  intro i hi
  rw [BitVec.getLsbD_and]
  interval_cases i <;> simp only [h₀, h₁, h₂, h₃, h₄, h₅, h₆, h₇, u₀, u₁, u₂, u₃, u₄, u₅] <;> simp

theorem clearReserved_reserved (b : Byte) : (b &&& 0x3F#8) &&& 0xC0#8 = 0#8 := by
  rw [BitVec.and_assoc]
  exact BitVec.and_zero

theorem clearReserved_idem (b : Byte) : (b &&& 0x3F#8) &&& 0x3F#8 = b &&& 0x3F#8 := by
  rw [BitVec.and_assoc]
  rfl

/-- A state byte differs from itself with the reserved bits cleared by those bits. -/
theorem clearReserved_xor_self (b : Byte) : (b &&& 0x3F#8) ^^^ b = b &&& 0xC0#8 := by
  revert b
  decide

/-- The checksums of an accepted packet and of its re-pack differ by the deviations (R131, R155; log entry 23). -/
theorem repack_checksum_xor {p : Packet} (hx : xor5 p = p[15]) : (packPacket (unpackPacket p))[15] ^^^ p[15] =
    (p[10] &&& 0xC0#8) ^^^ (p[13] ^^^ 0xFF#8) ^^^ (p[14] ^^^ 0x23#8) := by
  have hq : (packPacket (unpackPacket p))[15] = (p[10] &&& 0x3F#8) ^^^ p[11] ^^^ p[12] ^^^ 0xFF#8 ^^^ 0x23#8 := by
    rw [packPacket_checksum, xor5, packPacket_state, stateByteOf_unpackPacket]
    rfl
  calc (packPacket (unpackPacket p))[15] ^^^ p[15]
      = ((p[10] &&& 0x3F#8) ^^^ p[10]) ^^^ (p[13] ^^^ 0xFF#8) ^^^ (p[14] ^^^ 0x23#8) ^^^ (p[11] ^^^ p[11])
          ^^^ (p[12] ^^^ p[12]) := by rw [hq, ← hx, xor5]; ac_rfl
    _ = (p[10] &&& 0xC0#8) ^^^ (p[13] ^^^ 0xFF#8) ^^^ (p[14] ^^^ 0x23#8) := by simp [clearReserved_xor_self]

/-- VALIDATE, UNPACK, PACK in a row on an accepted packet: what was checked, and that PACK gets UNPACK's Command. -/
theorem repack_of_exec {s t u v : State} {g : BitVec 3} {c : Command} (hval : exec .validate s = .next t)
    (hdone : t.dec.returned = .done) (hdiag : t.dec.diag = some g) (hunp : exec .unpack t = .next u)
    (hcmd : u.dec.returned = .command c) (hpack : exec (.pack c) u = .next v) :
    validatePacket s.dec.dpkt = .ok g ∧ v.enc.epkt = packPacket (unpackPacket s.dec.dpkt) := by
  cases (exec_validate s).symm.trans hval
  cases (exec_unpack _).symm.trans hunp
  cases (exec_pack _ c).symm.trans hpack
  simp only [State.setDec_dec, Dec.handBack_returned, Dec.validated_dpkt, Returned.command.injEq] at hcmd
  subst hcmd
  refine ⟨?_, rfl⟩
  cases hv : validatePacket s.dec.dpkt with
  | error e => simp [Dec.validated_returned, hv, handedBack] at hdone
  | ok g' => simpa [Dec.validated, hv] using hdiag

/-- Settles O57: the re-pack has the reserved bits clear and the fillers of R26, so each deviation is a difference, and the
checksums differ by their XOR. -/
theorem deviantPacketsDifferFromTheirRepack : Obligations.DeviantPacketsDifferFromTheirRepack := by
  rintro s t u v p q g c rfl hval hdone hdiag hne hunp hcmd hpack rfl
  obtain ⟨hok, hq⟩ := repack_of_exec hval hdone hdiag hunp hcmd hpack
  obtain ⟨hpre, hx, rfl⟩ := validatePacket_eq_ok_iff.mp hok
  rw [hq, packPacket_state, packPacket_fill13, packPacket_fill14, stateByteOf_unpackPacket, clearReserved_reserved,
    clearReserved_idem]
  refine ⟨(exists_deviation_of_diagOf_ne_zero hne).imp Ne.symm (.imp Ne.symm Ne.symm),
    (packPacket_preamble _).trans hpre.symm, rfl, rfl, rfl, ?_⟩
  rw [← repack_checksum_xor hx, BitVec.xor_eq_zero_iff]

end Machine
end Sys2Proof
end

section
/-! SUPPORT. The statements about the field codec (43_field_codec.md): what UNPACK reads and drops, what PACK builds, and how
the two undo each other. -/

namespace Sys2Proof
namespace Machine

/-! ### UNPACK -/

/-- Settles O34: the Command UNPACK hands back, field by field. -/
theorem unpackSplitsTheStateByte : Obligations.UnpackSplitsTheStateByte := by
  rintro s p rfl
  obtain ⟨h₀, h₁, h₂, h₃, h₄, h₅⟩ := unpackPacket_bits s.dec.dpkt
  exact ⟨unpackPacket s.dec.dpkt, exec_unpack s, h₀, h₁, h₂, h₃, h₄, h₅, rfl, rfl⟩

/-- Clearing the reserved bits keeps the six booleans' bits (R67). -/
theorem getLsbD_clearReserved (b : Byte) {k : Nat} (hk : k < 6) : (b &&& 0x3F#8).getLsbD k = b.getLsbD k := by
  rw [BitVec.getLsbD_and]
  interval_cases k <;> simp

/-- All that enters the Command is bits 5:0 of byte 10 and bytes 11 and 12 (R152). -/
theorem unpackPacket_congr {p q : Packet} (hstate : p[10] &&& 0x3F#8 = q[10] &&& 0x3F#8) (hspeed : p[11] = q[11])
    (htemp : p[12] = q[12]) : unpackPacket p = unpackPacket q := by
  have hbit (k : Nat) (hk : k < 6) : p[10].getLsbD k = q[10].getLsbD k := by
    rw [← getLsbD_clearReserved p[10] hk, hstate, getLsbD_clearReserved q[10] hk]
  simp only [unpackPacket, stateBit_eq, hbit, hspeed, htemp, Nat.reduceLT]

/-- Settles O35: UNPACK hands back a Command that the dropped bits do not enter. -/
theorem unpackDropsReservedBitsAndFillers : Obligations.UnpackDropsReservedBitsAndFillers := by
  intro s s' t t' hstate hspeed htemp ht ht'
  cases (exec_unpack s).symm.trans ht
  cases (exec_unpack s').symm.trans ht'
  exact congrArg Returned.command (unpackPacket_congr hstate hspeed htemp)

/-! ### PACK -/

/-- Settles O36: the packet is `packPacket c`, byte by byte. -/
theorem packBuildsThePacket : Obligations.PackBuildsThePacket := by
  intro c s
  obtain ⟨h₀, h₁, h₂, h₃, h₄, h₅, h₆, h₇⟩ := stateByteOf_bits c
  exact ⟨packPacket c, exec_pack s c, packPacket_preamble c, h₀, h₁, h₂, h₃, h₄, h₅, h₆, h₇, packPacket_speed c,
    packPacket_temperature c, packPacket_fill13 c, packPacket_fill14 c, packPacket_checksum c⟩

/-- PACK leaves the reserved state bits clear (R155). -/
theorem stateByteOf_reserved (c : Command) : stateByteOf c &&& 0xC0#8 = 0#8 := by
  obtain ⟨-, -, -, -, -, -, h₆, h₇⟩ := stateByteOf_bits c
  by_contra h
  rw [← Ne, reservedBits_ne_zero_iff, h₆, h₇] at h
  simp at h

/-- A packet that PACK made has no deviation (R134, R155). -/
theorem diagOf_packPacket (c : Command) : diagOf (packPacket c) = 0#3 := by
  by_contra h
  rcases exists_deviation_of_diagOf_ne_zero h with hstate | h13 | h14
  · exact hstate (stateByteOf_reserved c)
  · exact h13 (packPacket_fill13 c)
  · exact h14 (packPacket_fill14 c)

/-- VALIDATE accepts every packet that PACK made, with `DIAG = 000` (R157). -/
theorem validatePacket_packPacket (c : Command) : validatePacket (packPacket c) = .ok 0#3 :=
  validatePacket_eq_ok_iff.mpr ⟨packPacket_preamble c, (packPacket_checksum c).symm, diagOf_packPacket c⟩

/-! ### PACK, then UNPACK -/

/-- UNPACK undoes PACK (R157). -/
@[simp] theorem unpackPacket_packPacket (c : Command) : unpackPacket (packPacket c) = c := by
  obtain ⟨h₀, h₁, h₂, h₃, h₄, h₅, -, -⟩ := stateByteOf_bits c
  simp only [unpackPacket, stateBit_eq, packPacket_state, packPacket_speed, packPacket_temperature, h₀, h₁, h₂, h₃, h₄, h₅]

/-- Commands whose packets agree in bytes 10 to 12 are equal: UNPACK reads nothing else (R157, last sentence). -/
theorem command_eq_of_packPacket {c c' : Command} (hstate : (packPacket c)[10] = (packPacket c')[10])
    (hspeed : (packPacket c)[11] = (packPacket c')[11]) (htemp : (packPacket c)[12] = (packPacket c')[12]) : c = c' :=
  calc c = unpackPacket (packPacket c) := (unpackPacket_packPacket c).symm
    _ = unpackPacket (packPacket c') := unpackPacket_congr (by rw [hstate]) hspeed htemp
    _ = c' := unpackPacket_packPacket c'

/-- Settles O37: the round trip from Commands, and by it that PACK is injective in bytes 10 to 12. -/
theorem packedCommandsUnpackToThemselves : Obligations.PackedCommandsUnpackToThemselves := by
  refine ⟨fun c s t u ht hu => ?_, fun c c' s t t' hne ht ht' => ?_⟩
  · cases (exec_pack s c).symm.trans ht
    replace hu : u.dec.dpkt = packPacket c := hu
    have hval : validatePacket u.dec.dpkt = .ok 0#3 := hu ▸ validatePacket_packPacket c
    exact ⟨⟨_, exec_validate_of_ok hval, rfl, rfl⟩, _, exec_unpack u, by simp [hu]⟩
  · cases (exec_pack s c).symm.trans ht
    cases (exec_pack s c').symm.trans ht'
    by_contra h
    simp only [not_or, not_not] at h
    obtain ⟨hstate, hspeed, htemp⟩ := h
    exact hne (command_eq_of_packPacket hstate hspeed htemp)

/-! ### UNPACK, then PACK -/

/-- A packet is its first ten bytes and the six others. -/
theorem packet_eq_of_bytes {p q : Packet} (hpre : p.toList.take 10 = q.toList.take 10) (h10 : p[10] = q[10])
    (h11 : p[11] = q[11]) (h12 : p[12] = q[12]) (h13 : p[13] = q[13]) (h14 : p[14] = q[14]) (h15 : p[15] = q[15]) :
    p = q := by
  apply Vector.ext
  intro i hi
  rcases Nat.lt_or_ge i 10 with hlt | hge
  · have h := congrArg (·[i]?) hpre
    simpa [List.getElem?_take_of_lt hlt, hi] using h
  · interval_cases i <;> assumption

/-- A packet with `DIAG` 000 has no deviation (R134). -/
theorem no_deviation_of_diagOf_eq_zero {p : Packet} (h : diagOf p = 0#3) :
    p[10] &&& 0xC0#8 = 0#8 ∧ p[13] = 0xFF#8 ∧ p[14] = 0x23#8 := by
  obtain ⟨h₁₃, h₁₄, hr⟩ := diagOf_bits p
  rw [h, BitVec.getLsbD_zero] at h₁₃ h₁₄ hr
  exact ⟨bne_eq_false_iff_eq.mp hr.symm, bne_eq_false_iff_eq.mp h₁₃.symm, bne_eq_false_iff_eq.mp h₁₄.symm⟩

/-- PACK after UNPACK gives an accepted packet without a deviation back (R157, third sentence). -/
theorem packPacket_unpackPacket {p : Packet} (hpre : p.toList.take 10 = Config.preamble.toList) (hx : xor5 p = p[15])
    (h : diagOf p = 0#3) : packPacket (unpackPacket p) = p := by
  obtain ⟨hres, h13, h14⟩ := no_deviation_of_diagOf_eq_zero h
  have hstate : p[10] &&& 0x3F#8 = p[10] := BitVec.xor_eq_zero_iff.mp ((clearReserved_xor_self p[10]).trans hres)
  have hsum : (packPacket (unpackPacket p))[15] ^^^ p[15] = 0#8 := by
    rw [repack_checksum_xor hx, hres, h13, h14]
    rfl
  exact packet_eq_of_bytes ((packPacket_preamble _).trans hpre.symm) ((stateByteOf_unpackPacket p).trans hstate) rfl rfl
    h13.symm h14.symm (BitVec.xor_eq_zero_iff.mp hsum)

/-- Settles O38: a packet that PACK made has `DIAG` 000, and one with `DIAG` 000 is the packet PACK makes. -/
theorem packRestoresExactlyTheCleanPackets : Obligations.PackRestoresExactlyTheCleanPackets := by
  intro s t u v g c hval hdone hdiag hunp hcmd hpack
  obtain ⟨hok, hq⟩ := repack_of_exec hval hdone hdiag hunp hcmd hpack
  obtain ⟨hpre, hx, rfl⟩ := validatePacket_eq_ok_iff.mp hok
  rw [hq]
  constructor
  · intro h
    rw [← h]
    exact diagOf_packPacket _
  · exact packPacket_unpackPacket hpre hx

end Machine
end Sys2Proof
end

section
/-! SUPPORT. The statement about the pulse sequence writer (44_pulse_writer.md): which entry WRITE puts at which place, and how
long the whole sequence lasts. -/

namespace Sys2Proof
namespace Machine

/-! ### The entries by place -/

theorem toInt_byteEntries_start (b : Byte) : (byteEntries b)[0]?.map BitVec.toInt = some 800 := by
  rw [← List.getElem?_map, toInt_byteEntries]
  rfl

/-- The data cells follow the start mark, least significant bit first (R64). -/
theorem toInt_byteEntries_data (b : Byte) {k : Nat} (hk : k < 8) :
    (byteEntries b)[1 + k]?.map BitVec.toInt = some (if b.getLsbD k = true then -800 else 800) := by
  rw [← List.getElem?_map, toInt_byteEntries, dataBitsOf_eq]
  interval_cases k <;> rfl

theorem toInt_byteEntries_stop (b : Byte) : (byteEntries b)[9]?.map BitVec.toInt = some (-1600) := by
  rw [← List.getElem?_map, toInt_byteEntries]
  rfl

/-- The entry at place `k` of byte frame `i` of the sequence WRITE appends (R172). -/
theorem getElem?_packetEntries (p : Packet) (i : Fin 16) {k : Nat} (hk : k < 10) :
    (packetEntries p)[10 * i.val + k]? = (byteEntries p[i])[k]? := by
  rw [packetEntries, List.getElem?_append_left (by rw [length_frameEntries]; omega), getElem?_frameEntries p i hk]

/-- The end marker is the last entry (R172). -/
theorem getElem?_packetEntries_last (p : Packet) : (packetEntries p)[160]? = some endEntry := by
  rw [packetEntries, ← length_frameEntries p, List.getElem?_concat_length]

/-! ### The duration of the sequence -/

/-- A mark cell and a space cell last equally long, so no length below depends on the bytes (R61). -/
theorem durationLength_cellEntry (bit : Bool) : durationLength (cellEntry bit) = 800 := by
  cases bit <;> decide

/-- A byte frame lasts eleven bit periods (R64). -/
theorem sum_durationLength_byteEntries (b : Byte) : ((byteEntries b).map durationLength).sum = 8800 := by
  have hmark : durationLength (markOf 1) = 800 := by decide
  have hstop : durationLength (spaceOf Config.stopBits) = 1600 := by decide
  simp [byteEntries, dataBitsOf_eq, durationLength_cellEntry, hmark, hstop]

theorem sum_durationLength_frameEntries (p : Packet) : ((frameEntries p).map durationLength).sum = 140800 := by
  simp [frameEntries, slotNumbers, sum_durationLength_byteEntries]

theorem sum_durationLength_packetEntries (p : Packet) : ((packetEntries p).map durationLength).sum = 147200 := by
  have hend : durationLength endEntry = 6400 := by decide
  simp [packetEntries, sum_durationLength_frameEntries, hend]

/-! ### WRITE -/

/-- WRITE leaves all but `TX` and appends there (R171; on a non-empty `TX`, log entry 13). -/
theorem exec_write_eq (s : State) :
    exec .write s = .next { s with enc := { s.enc with tx := s.enc.tx ++ packetEntries s.enc.epkt } } := by
  rw [exec_write, Enc.write_eq]
  rfl

/-- Settles O39: the entries of `EPKT`, read off place by place within their byte frame. -/
theorem writeEmitsTheByteFrames : Obligations.WriteEmitsTheByteFrames := by
  intro s
  refine ⟨packetEntries s.enc.epkt, exec_write_eq s, length_packetEntries _, sum_durationLength_packetEntries _,
    fun i => ⟨?_, fun k hk => ?_, ?_⟩, ?_⟩
  · rw [← Nat.add_zero (10 * i.val), getElem?_packetEntries _ i (by decide)]
    exact toInt_byteEntries_start _
  · rw [Nat.add_assoc, getElem?_packetEntries _ i (by omega)]
    exact toInt_byteEntries_data _ hk
  · rw [getElem?_packetEntries _ i (by decide)]
    exact toInt_byteEntries_stop _
  · rw [getElem?_packetEntries_last, Option.map_some, endEntry_toInt]

end Machine
end Sys2Proof
end

section
/-! SUPPORT. The statements about DECODE and ENCODE (45_top_level.md): what each is made of, that the one undoes the other, and
what a merged, an altered or a shortened sequence decodes to. -/

namespace Sys2Proof
namespace Machine

/-! ### No request -/

/-- Settles O8: there is no request to fetch. -/
theorem stepWithoutRequestChangesNothing : Obligations.StepWithoutRequestChangesNothing := by
  intro s h
  rw [step, fetchRequest, h]

/-! ### ENCODE -/

/-- ENCODE leaves PACK's packet in `EPKT`, the entries of that packet alone in `TX`, and all else as it was (R192). -/
theorem exec_encode_eq (c : Command) (s : State) :
    exec (.encode c) s = .next { s with enc := ⟨packPacket c, packetEntries (packPacket c)⟩ } := by
  rw [exec_encode, Enc.write_eq]
  rfl

theorem tx_of_exec_encode {c : Command} {s t : State} (h : exec (.encode c) s = .next t) :
    t.enc.tx = packetEntries (packPacket c) := by
  cases (exec_encode_eq c s).symm.trans h
  rfl

/-- Packets that agree in `count` bytes from byte `start` on have the same entries there (R172). -/
theorem slice_packetEntries_congr {p q : Packet} {start count : Nat} (hle : start + count ≤ 16)
    (h : ∀ i : Fin 16, start ≤ i.val → i.val < start + count → p[i] = q[i]) :
    ((packetEntries p).drop (10 * start)).take (10 * count) = ((packetEntries q).drop (10 * start)).take (10 * count) := by
  apply List.ext_getElem?
  intro n
  rcases Nat.lt_or_ge n (10 * count) with hn | hn
  · have hplace : 10 * start + n = 10 * (start + n / 10) + n % 10 := by omega
    have hbyte := h ⟨start + n / 10, by omega⟩ (by simp) (by simp; omega)
    have hentry (r : Packet) := getElem?_packetEntries r ⟨start + n / 10, by omega⟩ (Nat.mod_lt n (by decide : 10 > 0))
    rw [List.getElem?_take_of_lt hn, List.getElem?_take_of_lt hn, List.getElem?_drop, List.getElem?_drop, hplace,
      hentry p, hentry q, hbyte]
  · rw [List.getElem?_take_eq_none hn, List.getElem?_take_eq_none hn]

/-- Bytes 0 to 9, 13 and 14 of PACK's packet do not depend on the Command (R155). -/
theorem packPacket_fixed_byte (c c' : Command) (i : Fin 16) (hi : i.val < 10 ∨ i.val = 13 ∨ i.val = 14) :
    (packPacket c)[i] = (packPacket c')[i] := by
  obtain ⟨i, hlt⟩ := i
  rcases hi with hi | rfl | rfl
  · change i < 10 at hi
    interval_cases i <;> rfl
  · rfl
  · rfl

/-- Settles O40: the three steps leave PACK's packet and its entries, which depend on the Command only through bytes 10 to 12
and 15. -/
theorem encodeIsPackThenWrite : Obligations.EncodeIsPackThenWrite := by
  intro c s
  refine ⟨_, _, exec_pack s c, exec_write_eq _, exec_encode_eq c s, length_packetEntries _, rfl, rfl, rfl, rfl,
    sum_durationLength_packetEntries _, fun c' s' t' h => ?_⟩
  rw [tx_of_exec_encode h]
  exact ⟨slice_packetEntries_congr (start := 0) (count := 10) (by decide)
      fun i _ hi => packPacket_fixed_byte c' c i (.inl (by omega)),
    slice_packetEntries_congr (start := 13) (count := 2) (by decide)
      fun i hlo hhi => packPacket_fixed_byte c' c i (.inr (by omega))⟩

/-- Settles O47: `EPKT` is PACK's packet, whose checksum is computed last. -/
theorem encodeLeavesAConsistentChecksum : Obligations.EncodeLeavesAConsistentChecksum :=
  fun c s => ⟨_, exec_encode_eq c s, packPacket_checksum c⟩

/-! ### DECODE -/

/-- A DECODE that reads a packet's cells leaves that packet in `DPKT`, accepted or not. -/
theorem runDecode_dpkt_of_reads {rx : List Duration} {p : Packet} {c : Cursor} (h : Reads rx freshCursor (packetBits p) c)
    (n : Nat) (d : Dec) : (runDecode rx n d).dpkt = p := by
  rw [runDecode, runFrame_of_reads (d := d.setCur freshCursor) n h]
  simp only [Dec.forgetFramer_dpkt, Dec.setDpkt_dpkt]
  cases validatePacket p <;> rfl

/-- The packet a DECODE accepts does not depend on the unit before (R195). -/
theorem runDecode_dpkt_congr {rx : List Duration} {n : Nat} {d : Dec} (h : (runDecode rx n d).status = .ok) (n' : Nat)
    (d' : Dec) : (runDecode rx n d).dpkt = (runDecode rx n' d').dpkt := by
  rcases runDecode_cases rx n d with ⟨cause, -, -, hv, -⟩ | ⟨p, c, -, hr, -, hp, -⟩
  · exact absurd ((congrArg Prod.fst hv).symm.trans h) cause.status_ne_ok
  · rw [hp, runDecode_dpkt_of_reads hr]

/-- Settles O44: DECODE begins at the start of its argument, and ENCODE writes all of ENC. -/
theorem resultsDependOnTheArgumentAlone : Obligations.ResultsDependOnTheArgumentAlone := by
  refine fun s s' => ⟨fun rx => ?_, fun cmd => ?_⟩
  · exact ⟨_, _, exec_decode s rx, exec_decode s' rx, runDecode_verdict_congr rx _ _ _ _,
      (runDecode_cur rx _ _).trans (runDecode_cur rx _ _).symm, fun h => runDecode_dpkt_congr h _ _⟩
  · exact ⟨_, _, exec_encode s cmd, exec_encode s' cmd, write_clearTx_pack_congr s.enc s'.enc cmd, rfl⟩

/-- Settles O41, by FRAME's outcome and then by VALIDATE's. -/
theorem decodeIsItsFourSteps : Obligations.DecodeIsItsFourSteps := by
  intro rx s
  refine ⟨_, _, _, exec_decode s rx, exec_rdReset _, exec_frame _, ?_⟩
  simp only [State.setDec_dec, State.setDec_rx, State.setDec_freeCount, runDecode]
  cases hf : runFrame rx s.freeCount (s.dec.setCur freshCursor) with
  | raised cause d => exact .inl ⟨cause, rfl, rfl⟩
  | ok _ d =>
    refine .inr ⟨rfl, ?_⟩
    cases hv : validatePacket d.dpkt with
    | error cause => exact ⟨_, exec_validate_of_error hv, .inl ⟨cause, rfl, by simp only [hv]; rfl⟩⟩
    | ok g =>
      exact ⟨_, exec_validate_of_ok hv,
        .inr ⟨rfl, _, unpackPacket d.dpkt, g, exec_unpack _, rfl, rfl, by simp only [hv]; rfl⟩⟩

/-- DECODE of a sequence whose 177 cells are a packet's reports what the packet is (R191). -/
theorem decodesTo_of_reads {rx : List Duration} {p : Packet} {c : Cursor} (h : Reads rx freshCursor (packetBits p) c) :
    DecodesTo rx (packetVerdict p) := by
  intro s
  obtain ⟨hv, -⟩ := runDecode_of_reads h s.freeCount s.dec
  exact ⟨_, exec_decode s rx, hv⟩

/-- DECODE of a packet as written reports what the packet is (R122, R191). -/
theorem decodesTo_packetEntries (p : Packet) : DecodesTo (packetEntries p) (packetVerdict p) :=
  decodesTo_of_reads (reads_packetEntries p)

/-- Settles O46: the packet that is framed is PACK's, which is accepted and unpacks to the Command. -/
theorem decodeOfEncodedCommandIsTheCommand : Obligations.DecodeOfEncodedCommandIsTheCommand := by
  intro c s t h
  have hverdict : packetVerdict (packPacket c) = (.ok, some c, some 0#3) := by
    rw [packetVerdict, validatePacket_packPacket, unpackPacket_packPacket]
  rw [tx_of_exec_encode h, ← hverdict]
  exact decodesTo_packetEntries _

/-- Settles O49: bytes 10 to 14 still give the old byte 15. -/
theorem alteredChecksumByteIsRejected : Obligations.AlteredChecksumByteIsRejected := by
  intro p b s t hpre hsum hb hepkt htx hwrite
  have htaken : (p.set 15 b).toList.take 10 = Config.preamble.toList := (take_ten_set p (i := 15) (by decide) b).trans hpre
  have hxor : xor5 (p.set 15 b) = p[15] := by rw [← hsum]; simp [xor5]
  have hbad : validatePacket (p.set 15 b) = .error .checksumMismatch :=
    validatePacket_eq_checksumMismatch htaken (by rw [hxor]; simpa using hb.symm)
  have hverdict : packetVerdict (p.set 15 b) = (.checksumMismatch, none, none) := by rw [packetVerdict, hbad]; rfl
  cases (exec_write s).symm.trans hwrite
  rw [State.setEnc_enc, Enc.write_eq, htx, hepkt, List.nil_append, ← hverdict]
  exact decodesTo_packetEntries _

/-! ### Clean sequences of the same cells -/

/-- Cursors of two sequences that have the same cells left. -/
def SameCellsLeft (es es' : List Duration) (c c' : Cursor) : Prop :=
  ∃ bits, Standing es c bits ∧ Standing es' c' bits

theorem inStep_sameCellsLeft {es es' : List Duration} (h : ∀ d ∈ es, CleanEntry d) (h' : ∀ d ∈ es', CleanEntry d) :
    InStep es es' (SameCellsLeft es es') := by
  rintro c c' ⟨bits, hs, hs'⟩
  rcases nextBit_of_standing h hs with ⟨rfl, ho⟩ | ⟨b, rest, rfl, ho, hrest⟩ <;>
    rcases nextBit_of_standing h' hs' with ⟨hnil, ho'⟩ | ⟨b', rest', hcons, ho', hrest'⟩
  · exact ⟨ho.trans ho'.symm, fun b hb => by simp [ho] at hb⟩
  · cases hcons
  · cases hnil
  · cases hcons
    exact ⟨ho.trans ho'.symm, fun _ _ => ⟨rest, hrest, hrest'⟩⟩

theorem sameCellsLeft_start {es es' : List Duration} (h : cellsOf es = cellsOf es') :
    SameCellsLeft es es' freshCursor freshCursor :=
  ⟨_, standing_start es, h ▸ standing_start es'⟩

/-- A clean entry's bit is the sign of the entry (R93). -/
theorem bitOfEntry_of_clean {d : Duration} (h : CleanEntry d) : bitOfEntry d = decide (d.toInt < 0) := by
  obtain ⟨n, hn, hlo, -⟩ := h
  exact bitOfEntry_eq_decide (toInt_ne_zero_of_bit (used := 0) (by rw [remainingLength]; omega))

/-- Entries of one sign hold equal bits, as many as their cells in all. -/
theorem cellsOf_of_same_bit {run : List Duration} {b : Bool} (h : ∀ d ∈ run, bitOfEntry d = b) :
    cellsOf run = List.replicate (run.map cellsIn).sum b := by
  induction run with
  | nil => rfl
  | cons d run ih =>
    obtain ⟨hd, hrun⟩ := List.forall_mem_cons.mp h
    rw [cellsOf_cons, ih hrun, hd, List.map_cons, List.sum_cons, List.replicate_add]

/-- Two marks that stray too far to be merged: two bits, then the end (R203). -/
theorem reads_two_straying_marks : ∃ c, Reads [1000#32, 1000#32] ⟨0, 0⟩ [false, false] c ∧
    (nextBit [1000#32, 1000#32] c).1 = .endOfData :=
  ⟨_, ⟨_, rfl, _, rfl, rfl⟩, rfl⟩

/-- Their sum: two bits, then a malformed one (R203). -/
theorem reads_mark_of_their_sum : ∃ c, Reads [2000#32] ⟨0, 0⟩ [false, false] c ∧
    (nextBit [2000#32] c).1 = .malformedBit :=
  ⟨_, ⟨_, rfl, _, rfl, rfl⟩, rfl⟩

/-- Settles O27: the two sequences hold the same cells, so they are read in step. -/
theorem mergingEntriesKeepsTheBits : Obligations.MergingEntriesKeepsTheBits := by
  refine ⟨fun before run after m hclean _ hsign _ hm hcells => ?_, reads_two_straying_marks, reads_mark_of_their_sum⟩
  have hbit : ∀ d ∈ run, bitOfEntry d = bitOfEntry m := fun d hd => by
    rw [bitOfEntry_of_clean (hclean d (by simp [hd])), bitOfEntry_of_clean hm, decide_eq_decide]
    exact hsign d hd
  have hmerged : ∀ d ∈ before ++ [m] ++ after, CleanEntry d := by
    intro d hd
    simp only [List.mem_append, List.mem_singleton] at hd
    rcases hd with (hd | rfl) | hd
    exacts [hclean d (by simp [hd]), hm, hclean d (by simp [hd])]
  have hsame : cellsOf (before ++ run ++ after) = cellsOf (before ++ [m] ++ after) := by
    simp [cellsOf_of_same_bit hbit, hcells]
  have hstep := inStep_sameCellsLeft hclean hmerged
  have hstart := sameCellsLeft_start hsame
  exact ⟨fun bits => reads_congr _ hstep bits hstart, fun s => ⟨_, _, exec_decode s _, exec_decode s _,
    runDecode_verdict_of_inStep hstep hstart _ _ _ _⟩⟩

/-! ### The entries byte frame by byte frame -/

/-- The byte frames of some slots, as written. -/
def slotEntries (p : Packet) (is : List (Fin 16)) : List Duration :=
  is.flatMap fun i => byteEntries p[i]

theorem frameEntries_eq (p : Packet) : frameEntries p = slotEntries p slotNumbers := rfl

theorem length_slotEntries (p : Packet) (is : List (Fin 16)) : (slotEntries p is).length = 10 * is.length := by
  simp [slotEntries, length_byteEntries, Nat.mul_comm]

/-- Eleven cells to a byte frame (R64). -/
theorem length_cellsOf_slotEntries (p : Packet) (is : List (Fin 16)) : (cellsOf (slotEntries p is)).length = 11 * is.length := by
  induction is with
  | nil => rfl
  | cons i is ih =>
    rw [slotEntries, List.flatMap_cons, cellsOf_append, cellsOf_byteEntries, List.length_append, List.length_cons,
      Nat.mul_succ, Nat.add_comm]
    exact congrArg (· + 11) ih

/-- A byte elsewhere does not enter. -/
theorem slotEntries_set {p : Packet} {i : Fin 16} {is : List (Fin 16)} (h : i ∉ is) (b : Byte) :
    slotEntries (p.set i b) is = slotEntries p is := by
  refine List.flatMap_congr fun j hj => ?_
  have hij : (i : ℕ) ≠ j := fun he => h (Fin.ext he ▸ hj)
  simp [hij]

/-- Slot `i` divides the slots into those before it and those after it. -/
theorem slotNumbers_split (i : Fin 16) : slotNumbers = slotNumbers.take i.val ++ i :: slotNumbers.drop (i.val + 1) ∧
    i ∉ slotNumbers.take i.val ∧ i ∉ slotNumbers.drop (i.val + 1) := by
  revert i
  decide

theorem length_take_slotNumbers (i : Fin 16) : (slotNumbers.take i.val).length = i.val := by
  simp [slotNumbers, Nat.le_of_lt i.isLt]

/-- What WRITE emits, around byte frame `i`. -/
theorem packetEntries_split (p : Packet) (i : Fin 16) : packetEntries p =
    slotEntries p (slotNumbers.take i.val) ++ byteEntries p[i] ++
      (slotEntries p (slotNumbers.drop (i.val + 1)) ++ [endEntry]) := by
  obtain ⟨hsplit, -, -⟩ := slotNumbers_split i
  have hframes := congrArg (slotEntries p) hsplit
  rw [packetEntries, frameEntries_eq, hframes]
  simp [slotEntries]

/-- Byte frame `i` begins at entry `10·i` (R172). -/
theorem length_entries_before (p : Packet) (i : Fin 16) : (slotEntries p (slotNumbers.take i.val)).length = 10 * i.val := by
  rw [length_slotEntries, length_take_slotNumbers]

/-- An entry put in the place of entry `m` of byte frame `i`. -/
theorem packetEntries_set_entry (p : Packet) (i : Fin 16) {m : Nat} (hm : m < 10) (d : Duration) :
    (packetEntries p).set (10 * i.val + m) d = slotEntries p (slotNumbers.take i.val) ++ (byteEntries p[i]).set m d ++
      (slotEntries p (slotNumbers.drop (i.val + 1)) ++ [endEntry]) := by
  have hlen := length_entries_before p i
  rw [packetEntries_split p i, List.append_assoc, List.set_append_right _ _ (by omega),
    List.set_append_left _ _ (by rw [length_byteEntries]; omega), hlen, Nat.add_sub_cancel_left, ← List.append_assoc]

/-! ### A negated data cell -/

theorem neg_cellEntry (b : Bool) : -cellEntry b = cellEntry (!b) := by
  cases b <;> decide

/-- Entry `1 + k` of a byte frame is data cell `k` (R64). -/
theorem getElem?_byteEntries_data (b : Byte) {k : Nat} (hk : k < 8) :
    (byteEntries b)[1 + k]? = some (cellEntry (b.getLsbD k)) := by
  rw [byteEntries, dataBitsOf_eq]
  interval_cases k <;> rfl

/-- The byte with bit `k` the other way. -/
def flipBit (b : Byte) (k : Nat) : Byte :=
  b ^^^ BitVec.twoPow 8 k

theorem getLsbD_flipBit (b : Byte) {j k : Nat} (hj : j < 8) :
    (flipBit b k).getLsbD j = if j = k then !b.getLsbD j else b.getLsbD j := by
  rw [flipBit, BitVec.getLsbD_xor, BitVec.getLsbD_twoPow]
  by_cases h : j = k
  · subst h; simp [hj]
  · simp [h, Ne.symm h]

theorem flipBit_ne (b : Byte) {k : Nat} (hk : k < 8) : flipBit b k ≠ b := by
  intro h
  have hbit := getLsbD_flipBit b (k := k) hk
  rw [h, if_pos rfl] at hbit
  simp at hbit

/-- A byte frame with a data cell negated is the frame of the byte with that bit flipped. -/
theorem byteEntries_flipBit (b : Byte) {k : Nat} (hk : k < 8) :
    byteEntries (flipBit b k) = (byteEntries b).set (1 + k) (cellEntry (!b.getLsbD k)) := by
  simp only [byteEntries, dataBitsOf_eq, getLsbD_flipBit, Nat.reduceLT]
  interval_cases k <;> rfl

/-- A sequence with a data cell negated is what WRITE emits of the packet with that bit flipped. -/
theorem packetEntries_flipBit (p : Packet) (i : Fin 16) {k : Nat} (hk : k < 8) :
    packetEntries (p.set i (flipBit p[i] k)) = (packetEntries p).set (10 * i.val + (1 + k)) (cellEntry (!p[i].getLsbD k)) := by
  obtain ⟨-, hbefore, hafter⟩ := slotNumbers_split i
  rw [packetEntries_set_entry p i (by omega), packetEntries_split _ i, slotEntries_set hbefore, slotEntries_set hafter,
    ← byteEntries_flipBit _ hk]
  simp

/-- A packet with another byte in its preamble is a `PreambleMismatch` (R133). -/
theorem packetVerdict_of_altered_preamble {p : Packet} (hpre : p.toList.take 10 = Config.preamble.toList) {i : Fin 16}
    (hi : i.val < 10) {b : Byte} (hb : b ≠ p[i]) : packetVerdict (p.set i b) = (.preambleMismatch, none, none) := by
  have hne : (p.set i b).toList.take 10 ≠ Config.preamble.toList := by
    intro h
    have hbyte := congrArg (·[i.val]?) (h.trans hpre.symm)
    exact hb (by simpa [List.getElem?_take_of_lt hi] using hbyte)
  rw [packetVerdict, validatePacket_eq_preambleMismatch hne]
  rfl

/-! ### Sequences cut short -/

theorem cleanEntry_of_mem_take {p : Packet} {n : Nat} (hn : n ≤ 160) {d : Duration} (h : d ∈ (packetEntries p).take n) :
    CleanEntry d := by
  rw [packetEntries, List.take_append_of_le_length (by rw [length_frameEntries]; exact hn)] at h
  exact cleanEntry_of_mem_frameEntries (List.mem_of_mem_take h)

/-- The first `n` entries hold the first cells of the packet, and not all of them. -/
theorem cellsOf_take_packetEntries (p : Packet) {n : Nat} (hn : n ≤ 160) : ∃ rest, rest ≠ [] ∧
    packetBits p = cellsOf ((packetEntries p).take n) ++ rest := by
  refine ⟨cellsOf ((frameEntries p).drop n) ++ [true], by simp, ?_⟩
  rw [packetEntries, List.take_append_of_le_length (by rw [length_frameEntries]; exact hn), ← List.append_assoc,
    ← cellsOf_append, List.take_append_drop, cellsOf_frameEntries]

/-- A scan runs out of bits that fit as far as they go. -/
theorem scanBits_of_fits_append {ws : List (Option Bool)} {bits rest : List Bool} (h : Fits ws (bits ++ rest))
    (hrest : rest ≠ []) : scanBits ws bits = some .endOfData := by
  induction bits generalizing ws with
  | nil =>
    obtain ⟨b, rest, rfl⟩ := List.exists_cons_of_ne_nil hrest
    cases ws with
    | nil => exact h.elim
    | cons => rfl
  | cons b bits ih =>
    cases ws with
    | nil => exact h.elim
    | cons w ws =>
      obtain ⟨hb, hbits⟩ := h
      rw [scanBits, hb]
      exact ih hbits

/-- Settles O50: the entries left are clean, and their cells fit the packet's pattern and end before it does. -/
theorem truncationIsEndOfData : Obligations.TruncationIsEndOfData := by
  intro c s t m h hm
  rw [tx_of_exec_encode h]
  obtain ⟨rest, hrest, hbits⟩ := cellsOf_take_packetEntries (packPacket c) hm
  have hscan := scan_of_clean (fun d => cleanEntry_of_mem_take (p := packPacket c) (d := d) hm) packetPattern
  rw [scanBits_of_fits_append (hbits ▸ fits_packetBits (packPacket c)) hrest] at hscan
  exact decodesTo_of_scan_some (Prod.ext hscan rfl)

/-! ### A wrong start or stop bit -/

/-- The first `m` entries of a byte frame are its first `m` cells, up to the stop space. -/
theorem length_cellsOf_take_byteEntries (b : Byte) {m : Nat} (hm : m ≤ 9) :
    (cellsOf ((byteEntries b).take m)).length = m := by
  have hframe : byteEntries b = (false :: dataBitsOf b).map cellEntry ++ [spaceOf Config.stopBits] := rfl
  rw [hframe, List.take_append_of_le_length hm, ← List.map_take, cellsOf_map_cellEntry, List.length_take]
  exact min_eq_left hm

/-- Entry `m` of byte frame `i` begins at cell `11·i + m`, up to the stop space. -/
theorem cellsOf_take_eq_take_packetBits (p : Packet) (i : Fin 16) {m : Nat} (hm : m ≤ 9) :
    cellsOf ((packetEntries p).take (10 * i.val + m)) = (packetBits p).take (11 * i.val + m) := by
  have hlen : (cellsOf ((packetEntries p).take (10 * i.val + m))).length = 11 * i.val + m := by
    rw [packetEntries_split p i, List.append_assoc, ← length_entries_before p i, List.take_length_add_append,
      List.take_append_of_le_length (by rw [length_byteEntries]; omega), cellsOf_append, List.length_append,
      length_cellsOf_slotEntries, length_take_slotNumbers, length_cellsOf_take_byteEntries _ hm]
  obtain ⟨rest, -, hbits⟩ := cellsOf_take_packetEntries p (n := 10 * i.val + m) (by omega)
  rw [hbits, ← hlen, List.take_left]

/-- Behind clean entries the reader takes the first cell of a long entry as if it had just begun there. -/
theorem reads_long_entry {before rest : List Duration} {d : Duration} (hclean : ∀ e ∈ before, CleanEntry e)
    (hlong : 534 ≤ remainingLength d 0) :
    Reads (before ++ d :: rest) freshCursor (cellsOf before ++ [bitOfEntry d]) ⟨before.length, 800⟩ := by
  have hread : memRead (before ++ d :: rest) before.length = some d := by simp [memRead]
  refine (reads_through before 0 (fun k e hk => ?_) hclean (by simp) _).mpr ?_
  · rw [Nat.zero_add, memRead, List.getElem?_append_left (List.getElem?_eq_some_iff.mp hk).1]
    exact hk
  · rw [Nat.zero_add]
    exact ⟨_, nextBit_of_bit (c := ⟨before.length, 0⟩) hread hlong, rfl⟩

/-- DECODE with a long entry of the wrong sign where entry `m` of byte frame `i` should begin, a tested cell. -/
theorem decodesToAt_of_wrong_entry (p : Packet) (i : Fin 16) {m : Nat} (hm : m = 0 ∨ m = 9) {d : Duration}
    (rest : List Duration) (hlong : 534 ≤ remainingLength d 0) (hd : bitOfEntry d = (m == 0)) :
    DecodesToAt ((packetEntries p).take (10 * i.val + m) ++ d :: rest) (.framingViolation, none, none)
      ⟨10 * i.val + m, 800⟩ := by
  have hclean : ∀ e ∈ (packetEntries p).take (10 * i.val + m), CleanEntry e := fun e => cleanEntry_of_mem_take (by omega)
  have hlen : ((packetEntries p).take (10 * i.val + m)).length = 10 * i.val + m := by
    rw [List.length_take, length_packetEntries]; omega
  have hreads := reads_long_entry (rest := rest) hclean hlong
  rw [cellsOf_take_eq_take_packetBits p i (by omega), hlen, reads_append] at hreads
  obtain ⟨c, hbefore, c', hread, rfl⟩ := hreads
  have hplace : packetPattern[11 * i.val + m]? = some (some (m != 0)) := by
    rw [getElem?_packetPattern i.isLt (by omega)]
    rcases hm with rfl | rfl <;> rfl
  have hscan := scan_of_failing_read (cause := .framingViolation) hplace hbefore hread
    (if_pos (wrongAt_some_eq_true.mpr (by rw [hd]; cases m <;> simp)))
  intro s
  obtain ⟨hv, hc⟩ := runDecode_of_scan_some hscan s.freeCount s.dec
  exact ⟨_, exec_decode s _, hv, hc⟩

/-- An entry put in the place of entry `n`: the entries before it stay, and so do those behind. -/
theorem packetEntries_set_eq (p : Packet) {n : Nat} (hn : n < 161) (d : Duration) :
    (packetEntries p).set n d = (packetEntries p).take n ++ d :: (packetEntries p).drop (n + 1) := by
  rw [List.set_eq_take_append_cons_drop, if_pos (by rw [length_packetEntries]; exact hn)]

/-- Settles O51: both replacements begin with a mark long enough for a bit. -/
theorem wrongPolarityStopBitIsRejected : Obligations.WrongPolarityStopBitIsRejected := by
  intro c s t i h hi
  rw [tx_of_exec_encode h]
  have hwrong (d : Duration) (rest : List Duration) :=
    decodesToAt_of_wrong_entry (packPacket c) ⟨i, hi⟩ (m := 9) (.inr rfl) (d := d) rest
  refine ⟨?_, ?_⟩
  · rw [packetEntries_set_eq _ (by omega)]
    exact hwrong _ _ (by decide) (by decide)
  · rw [List.append_assoc]
    exact hwrong _ _ (by decide) (by decide)

/-- A start or a stop entry negated is a long entry of the wrong sign. -/
theorem decodesToAt_of_negated_entry (p : Packet) (i : Fin 16) {m : Nat} (hm : m = 0 ∨ m = 9) {d : Duration}
    (hd : (packetEntries p)[10 * i.val + m]? = some d) :
    DecodesToAt ((packetEntries p).set (10 * i.val + m) (-d)) (.framingViolation, none, none) ⟨10 * i.val + m, 800⟩ := by
  rw [getElem?_packetEntries p i (by omega)] at hd
  rw [packetEntries_set_eq p (by omega)]
  rcases hm with rfl | rfl <;> cases hd
  · exact decodesToAt_of_wrong_entry p i (.inl rfl) _ (by decide) (by decide)
  · exact decodesToAt_of_wrong_entry p i (.inr rfl) _ (by decide) (by decide)

/-- A data cell of byte `i` negated is a bit of that byte flipped. -/
theorem packetEntries_set_neg_data (p : Packet) (i : Fin 16) {k : Nat} (hk : k < 8) {d : Duration}
    (hd : (packetEntries p)[10 * i.val + 1 + k]? = some d) :
    (packetEntries p).set (10 * i.val + 1 + k) (-d) = packetEntries (p.set i (flipBit p[i] k)) := by
  rw [Nat.add_assoc] at hd ⊢
  rw [getElem?_packetEntries p i (by omega), getElem?_byteEntries_data _ hk] at hd
  cases hd
  rw [neg_cellEntry, packetEntries_flipBit p i hk]

/-- Settles O48: a negated data cell gives another packet's sequence, a negated start or stop entry a wrong framing bit. -/
theorem preambleCorruptionIsRejected : Obligations.PreambleCorruptionIsRejected := by
  intro c s t d h
  rw [tx_of_exec_encode h]
  refine ⟨fun i k hi hk hd => ?_, fun i hi hd => ?_, fun i hi hd => ?_⟩
  · rw [packetEntries_set_neg_data (packPacket c) ⟨i, by omega⟩ hk hd,
      ← packetVerdict_of_altered_preamble (packPacket_preamble c) (i := ⟨i, by omega⟩) hi (flipBit_ne _ hk)]
    exact decodesTo_packetEntries _
  · exact decodesToAt_of_negated_entry (packPacket c) ⟨i, by omega⟩ (.inl rfl) hd
  · exact decodesToAt_of_negated_entry (packPacket c) ⟨i, by omega⟩ (.inr rfl) hd

end Machine
end Sys2Proof
end

section
/-! SUPPORT. The statements about failure (60_exceptions.md): a DECODE ends with one verdict, a Command or a cause. -/

namespace Sys2Proof
namespace Machine

/-- DECODE hands nothing back in the model's own register: neither FRAME's part of it, nor the failure entry, nor the
acceptance does (log entry 9). -/
@[simp] theorem runDecode_returned (rx : List Duration) (n : Nat) (d : Dec) : (runDecode rx n d).returned = d.returned := by
  obtain ⟨-, -, -, -, hreturned⟩ := scans_runFrame rx n (d.setCur freshCursor)
  rw [runDecode]
  cases hf : runFrame rx n (d.setCur freshCursor) with
  | raised cause d' =>
    rw [hf] at hreturned
    exact hreturned
  | ok _ d' =>
    rw [hf] at hreturned
    dsimp only
    cases validatePacket d'.dpkt with
    | error cause => exact hreturned
    | ok g => exact hreturned

/-- The codes a failure may leave in `STATUS` are the five of R210. -/
theorem Cause.status_cases (c : Cause) :
    c.status = .endOfData ∨ c.status = .malformedBit ∨ c.status = .framingViolation ∨ c.status = .preambleMismatch ∨
      c.status = .checksumMismatch := by
  cases c <;> decide

/-- Settles O42: a DECODE leaves a cause's code and no values, or OK and both values, and writes no register but its unit's
and `RX`. -/
theorem decodeEndsWithOneVerdict : Obligations.DecodeEndsWithOneVerdict := by
  intro rx s
  refine ⟨_, exec_decode s rx, rfl, rfl, rfl, runDecode_returned rx s.freeCount s.dec, ?_⟩
  rw [State.setDec_dec]
  rcases runDecode_verdict_cases rx s.freeCount s.dec with ⟨cause, hv⟩ | haccepted
  · obtain ⟨hstatus, hcmd, hdiag⟩ : _ ∧ _ ∧ _ := by simpa only [Dec.verdict, Prod.mk.injEq] using hv
    rw [hstatus]
    exact .inr ⟨cause.status_cases, hcmd, hdiag⟩
  · exact .inl haccepted

end Machine
end Sys2Proof
end

section
/-! SUPPORT. The statements about reset and hazards (70_reset_and_hazards.md): every instruction completes, and what the host's
steps leave unchanged. -/

namespace Sys2Proof
namespace Machine

/-- Settles O11: no meaning of ENC, of DEC or of the wire stops the machine. -/
theorem everyInstructionCompletes : Obligations.EveryInstructionCompletes := exec_completes

/-- ENCODE is the one operation of ENC that the host may request (R81, R249). -/
theorem ownerOf_ne_enc_of_hostMay {i : Instr} (hm : hostMay i = true) (hi : ∀ cmd, i ≠ .encode cmd) :
    ownerOf i ≠ .enc := by
  rcases hostMay_cases hm with ⟨rx, rfl⟩ | ⟨cmd, rfl⟩ | ho | rfl | rfl
  · exact nofun
  · exact absurd rfl (hi cmd)
  · rw [ho]
    exact nofun
  · exact nofun
  · exact nofun

/-- What the host may request besides ENCODE leaves ENC. -/
theorem exec_enc_of_hostMay {i : Instr} {s t : State} (hm : hostMay i = true) (hi : ∀ cmd, i ≠ .encode cmd)
    (h : exec i s = .next t) : t.enc = s.enc := by
  obtain ⟨t', ht', henc, -, -⟩ := exec_of_owner_ne_enc (ownerOf_ne_enc_of_hostMay hm hi) s
  cases ht'.symm.trans h
  exact henc

/-- What the host may request besides DECODE leaves every register of DEC: an ENCODE and an arrival leave the whole unit, and
a read writes only the model's own register (log entry 9). -/
theorem exec_dec_of_hostMay {i : Instr} {s t : State} (hm : hostMay i = true) (hi : ∀ rx, i ≠ .decode rx)
    (h : exec i s = .next t) : t.dec = { s.dec with returned := t.dec.returned } := by
  rcases hostMay_cases hm with ⟨rx, rfl⟩ | ⟨cmd, rfl⟩ | ho | rfl | rfl
  · exact absurd rfl (hi rx)
  · cases (exec_encode s cmd).symm.trans h
    rfl
  · obtain ⟨entries, he⟩ := exec_of_owner_host ho
    cases (he s).symm.trans h
    rfl
  · cases (exec_status s).symm.trans h
    rfl
  · cases (exec_diag s).symm.trans h
    rfl

/-- Settles O16: a host's step that is no reset found no request, or ran what the host may request; `CARRIER` is hard-wired. -/
theorem hostStepsWriteOnlyThroughTheirOperations : Obligations.HostStepsWriteOnlyThroughTheirOperations := by
  intro s t hhost h hreset
  rcases step_cases h with ⟨-, rfl⟩ | ⟨rest, hr, -⟩ | ⟨bytes, rest, i, hd, hexec, hr | ⟨hr, hm⟩⟩
  · exact ⟨fun _ => rfl, fun _ => rfl, rfl⟩
  · exact absurd hr (hreset rest)
  · exact absurd (hr ▸ List.mem_cons_self) (hhost bytes)
  · refine ⟨fun hdecode => ?_, fun hencode => ?_, rfl⟩
    · exact exec_dec_of_hostMay (s := { s with requests := rest }) hm (fun rx hi => hdecode bytes rest rx hr (hi ▸ hd)) hexec
    · exact exec_enc_of_hostMay (s := { s with requests := rest }) hm (fun cmd hi => hencode bytes rest cmd hr (hi ▸ hd)) hexec

end Machine
end Sys2Proof
end
